-- ==== Sys2Proof/Word.lean ====
section
/-! DEFINITION. The two widths of RAINBOW-CORE: 64-bit words and 8-bit bytes, both unsigned (spec 00_scope.md R6, R7, R8,
R12). Addition, subtraction, multiplication, shifts and bitwise operations on `BitVec` are exactly those of R8: modulo 2^64,
logical shifts, no flags (40_mixing.md R100). -/

namespace Sys2Proof

/-- A 64-bit unsigned word (R6, R8). -/
abbrev Word := BitVec 64

/-- A byte, 8 bits (R7). -/
abbrev Byte := BitVec 8

end Sys2Proof
end

