-- ==== Sys2Proof/Syntax.lean ====
section
/-! DEFINITION. The commands of the core: one constructor per row of spec/opcode_table.json, with the free fields of the row
(spec 30_encoding.md R82, R88). A command's other operands come from registers (R81). -/

namespace Sys2Proof

/-- A command (R82). `W` and `N` are the raw field values; which of them a command accepts is `Instr.wf`. -/
inductive Instr where
  /-- `NOP`, OP 0x0 (43_commands.md R165). -/
  | nop
  /-- `INIT` with the digest-width code `W`, OP 0x1 (R166). -/
  | init (w : BitVec 2)
  /-- `ABSORB` of `N` data bytes, OP 0x2 (R168). -/
  | absorb (n : BitVec 5)
  /-- `FINAL`, OP 0x3 (R171). -/
  | final
  /-- `ONESHOT` with the digest-width code `W`, OP 0x4 (R173). -/
  | oneshot (w : BitVec 2)
  /-- `CLEAR`, OP 0x5 (R176). -/
  | clear
deriving DecidableEq, Repr

end Sys2Proof
end

