-- ==== Sys2Proof/WellFormed.lean ====
section
/-! DEFINITION. Which operand values a command may carry (spec 30_encoding.md R83, R84). -/

namespace Sys2Proof

/-- `INIT` and `ONESHOT` take the width codes 0, 1 and 2: "`W = 3` is rejected with `BADWIDTH`" (R83). `ABSORB` takes 0 to 16
bytes: "`N` of 17 to 31 is rejected with `BADCOUNT`" (R84). -/
def Instr.wf : Instr → Bool
  | .nop => true
  | .init w => w != 3#2
  | .absorb n => n.toNat ≤ 16
  | .final => true
  | .oneshot w => w != 3#2
  | .clear => true

end Sys2Proof
end

