-- ==== Sys2Proof/Decode.lean ====
section
/-! DEFINITION. The command word, its decoder and its encoder (spec 30_encoding.md R80 to R88). There is one format, one
64-bit word; the decoder is total on every word and rejects by name (R87). -/

namespace Sys2Proof

/-- Why a word is rejected by the decode checks (R87). -/
inductive DecodeError where
  /-- `BADOP`: a reserved `OP`, a reserved bit that is 1, or a field that is not used and not 0 (R85, R86). -/
  | badOp
  /-- `BADWIDTH`: `INIT` or `ONESHOT` with `W = 3` (R83). -/
  | badWidth
  /-- `BADCOUNT`: `ABSORB` with `N > 16` (R84). -/
  | badCount
deriving DecidableEq, Repr

/-- `OP`, bits 3:0 (R81). -/
def opField (cw : Word) : BitVec 4 := cw.extractLsb' 0 4

/-- `W`, bits 5:4 (R81). -/
def wField (cw : Word) : BitVec 2 := cw.extractLsb' 4 2

/-- The reserved bits 7:6 (R81). -/
def reservedLow (cw : Word) : BitVec 2 := cw.extractLsb' 6 2

/-- `N`, bits 12:8 (R81). -/
def nField (cw : Word) : BitVec 5 := cw.extractLsb' 8 5

/-- The reserved bits 63:13 (R81). -/
def reservedHigh (cw : Word) : BitVec 51 := cw.extractLsb' 13 51

/-- A command with no operand: a non-zero `W` or `N` field is rejected (R85). -/
def decodePlain (cw : Word) (i : Instr) : Except DecodeError Instr :=
  if wField cw = 0#2 ∧ nField cw = 0#5 then .ok i else .error .badOp

/-- A command with a width code: `N` must be 0 (R85), then `W = 3` is rejected (R83). -/
def decodeWidth (cw : Word) (i : BitVec 2 → Instr) : Except DecodeError Instr :=
  if nField cw ≠ 0#5 then .error .badOp
  else if wField cw = 3#2 then .error .badWidth
  else .ok (i (wField cw))

/-- A command with a byte count: `W` must be 0 (R85), then `N > 16` is rejected (R84). -/
def decodeCount (cw : Word) (i : BitVec 5 → Instr) : Except DecodeError Instr :=
  if wField cw ≠ 0#2 then .error .badOp
  else if 16 < (nField cw).toNat then .error .badCount
  else .ok (i (nField cw))

/-- The decoder (R87), its checks in the order of 60_exceptions.md R203: the reserved bits, the `OP`, the unused fields, then
the operand's own range. `OP` 0x6 to 0xF are reserved (R86). -/
def decode (cw : Word) : Except DecodeError Instr :=
  if reservedLow cw ≠ 0#2 ∨ reservedHigh cw ≠ 0#51 then .error .badOp
  else match (opField cw).toNat with
    | 0x0 => decodePlain cw .nop
    | 0x1 => decodeWidth cw .init
    | 0x2 => decodeCount cw .absorb
    | 0x3 => decodePlain cw .final
    | 0x4 => decodeWidth cw .oneshot
    | 0x5 => decodePlain cw .clear
    | _ => .error .badOp

/-- The `OP` of a command (R82). -/
def Instr.opcode : Instr → BitVec 4
  | .nop => 0x0#4
  | .init _ => 0x1#4
  | .absorb _ => 0x2#4
  | .final => 0x3#4
  | .oneshot _ => 0x4#4
  | .clear => 0x5#4

/-- The command word of a command (R81, R82, R89): `OP`, `W` at bit 4, `N` at bit 8, every other bit 0. -/
def encode : Instr → Word
  | .nop => 0x00#64
  | .init w => 0x01#64 ||| (w.setWidth 64 <<< 4)
  | .absorb n => 0x02#64 ||| (n.setWidth 64 <<< 8)
  | .final => 0x03#64
  | .oneshot w => 0x04#64 ||| (w.setWidth 64 <<< 4)
  | .clear => 0x05#64

/-- The word of an opcode-table row given as a number of `nbits` bits (every bit above them 0): the command word itself, since
a command is one 64-bit register write (R80) and is never laid out in memory (20_memory.md R68). -/
def tableWord (nbits w : Nat) : Word := BitVec.ofNat 64 (w % 2 ^ nbits)

/-- The command the decoder reads from an opcode-table word; `none` where it rejects the word. -/
def decodeTableWord (nbits w : Nat) : Option Instr :=
  match decode (tableWord nbits w) with
  | .ok i => some i
  | .error _ => none

end Sys2Proof
end

