-- ==== Sys2Proof/Config.lean ====
section
/-! DEFINITION. What one build of the core fixes (spec 00_scope.md R5) and the free values.

The parameters of R5 that a rule reads are the fields of `Config`, held in the state as plain data; nothing here chooses a
value for one. LATENCY(cmd) is no field: "no rule of the model reads it" (R5), and the schedule of the state stands for it
(log entry 2). The types carry the limits R5 sets: 1 ≤ AW ≤ 64, REG_BASE 256-byte aligned, TAIL_OP[0] = TAIL_OP[7] = ADD
(log entry 1). -/

namespace Sys2Proof

/-- `ENDIAN` (R5, R10; 20_memory.md R61): the byte order of the lane words and of the digest words. -/
inductive Endian where
  | le
  | be
deriving DecidableEq, Repr, Inhabited

/-- One `TAIL_OP[i]` (R5; 42_finalization.md R140): how a tail byte is combined into its target word. -/
inductive TailOp where
  | add
  | or
  | xor
deriving DecidableEq, Repr, Inhabited

/-- The 13 open entries of `TAIL_OP` (R5). Entries 0 and 7 are `ADD` from the source and have no field. -/
structure TailOps where
  op1  : TailOp
  op2  : TailOp
  op3  : TailOp
  op4  : TailOp
  op5  : TailOp
  op6  : TailOp
  op8  : TailOp
  op9  : TailOp
  op10 : TailOp
  op11 : TailOp
  op12 : TailOp
  op13 : TailOp
  op14 : TailOp
deriving DecidableEq, Repr, Inhabited

/-- The build parameters of one core (R5). No property of `p … w` is assumed (40_mixing.md R102). -/
structure Config where
  /-- The multiplier constant `P`. -/
  p : Word
  /-- The multiplier constant `Q`. -/
  q : Word
  /-- The multiplier constant `R`. -/
  r : Word
  /-- The multiplier constant `S`. -/
  s : Word
  /-- The multiplier constant `T`. -/
  t : Word
  /-- The multiplier constant `U`. -/
  u : Word
  /-- The multiplier constant `V`. -/
  v : Word
  /-- The multiplier constant `W`. -/
  w : Word
  /-- `ENDIAN`. -/
  endian : Endian
  /-- `TAIL_OP`, the 13 open entries. -/
  tail : TailOps
  /-- `AW - 1`: the one-shot absorber's address width is `awPred + 1`, from 1 to 64. -/
  awPred : Fin 64
  /-- `REG_BASE / 256`: the register window begins at `256 * regPage`. -/
  regPage : Nat
deriving DecidableEq, Repr, Inhabited

/-- The parameters of the build the machine is reset as: OPEN (R5), so a constant with no body. A statement that holds of
every state holds for every build; log entry 1. -/
opaque Config.build : Config

/-- FREE VALUE (70_reset_and_hazards.md R241, 93_implementation_defined.md I3, I5): the `n`-th word drawn where the spec says
"any value", "drawn freely, under no law". Nothing is known of it; the state's counter `draws` makes every draw a new one (log
entry 4). -/
opaque Config.freeWord : Nat → Word

/-- FREE VALUE: what a byte of the input buffer space holds that nothing has written since power-on. The spec states no
contents (20_memory.md R56); log entry 6. -/
opaque Config.powerOnByte : Nat → Byte

end Sys2Proof
end

