-- ==== Sys2Proof/Machine/State.lean ====
section
/-! DEFINITION. The state of the core and of its surroundings, as plain data (spec 10_state.md R20 to R40), the reasons a step
stops, and the state after reset (70_reset_and_hazards.md R230). INVENTORY.md lists every field with its rule. -/

namespace Sys2Proof.Machine

/-- Four 64-bit words: the hash-state register file `H[0..3]` (10_state.md R20) and the digest registers `DOUT[0..3]` (R29). -/
structure Quad where
  w0 : Word
  w1 : Word
  w2 : Word
  w3 : Word
deriving DecidableEq, Repr, Inhabited

/-- `PHASE` (10_state.md R28). Code 3 is never taken. -/
inductive Phase where
  /-- `IDLE`, code 0: no session. -/
  | idle
  /-- `OPEN`, code 1: a session is open. -/
  | opened
  /-- `DONE`, code 2: the digest is computed. -/
  | done
deriving DecidableEq, Repr, Inhabited

/-- `WIDTH` (10_state.md R27). Code 3 is never stored. -/
inductive Width where
  /-- Code 0: 64 bits. -/
  | w64
  /-- Code 1: 128 bits. -/
  | w128
  /-- Code 2: 256 bits. -/
  | w256
deriving DecidableEq, Repr, Inhabited

/-- The result codes of `STATUS.ERR` (60_exceptions.md R200). Codes 7 to 15 are never produced. -/
inductive ResultCode where
  /-- 0: command accepted. -/
  | ok
  /-- 1: reserved `OP`, reserved bit set, or unused field not 0. -/
  | badOp
  /-- 2: `W = 3`. -/
  | badWidth
  /-- 3: `N > 16`. -/
  | badCount
  /-- 4: `PHASE = IDLE`. -/
  | noSession
  /-- 5: `PHASE = DONE`. -/
  | closed
  /-- 6: buffer outside the input buffer space. -/
  | range
deriving DecidableEq, Repr, Inhabited

/-- The input buffer space (20_memory.md R56): the bytes that something has written, addresses strictly rising. An unlisted
address holds no value that the model knows (log entry 6). -/
abbrev Memory := List Host.Cell

/-- What stands behind a part of the absorber's read port, where it is not ordinary memory. -/
inductive RegionKind where
  /-- The platform never answers a read (20_memory.md R63). -/
  | silent
  /-- Reads have side effects, or do not return the stored byte (20_memory.md R66, third duty). -/
  | sideEffect
deriving DecidableEq, Repr

/-- A part of the platform's map: `size` bytes from `base` (log entry 8). -/
structure Region where
  base : Nat
  size : Nat
  kind : RegionKind
deriving DecidableEq, Repr

/-- What the core latches when a command is issued (43_commands.md R160). While one is held, `BUSY` is 1. -/
structure Latched where
  /-- The command word. -/
  cw : Word
  /-- `s`, from `SEED`. -/
  seed : Word
  /-- `L`, from `LENGTH`. -/
  length : Word
  /-- `A`, from `SRC_ADDR`. -/
  srcAddr : Word
  /-- `d0`, from `DIN0`. -/
  din0 : Word
  /-- `d1`, from `DIN1`. -/
  din1 : Word
  /-- The values that a byte of the buffer `[A, A + L)` may have held while its stores were not visible or it was stored to
  (20_memory.md R66, first and second duty): address and value. The model's own mark, log entry 7. -/
  held : List Host.Cell
  /-- The regions with side effects that have stood behind the buffer (20_memory.md R66, third duty). The model's own mark, log
  entry 7. -/
  unstable : List Region
deriving DecidableEq, Repr, Inhabited

/-- The registers of the window (20_memory.md R51). -/
inductive Reg where
  | ctrl
  | status
  | seed
  | length
  | srcAddr
  | din0
  | din1
  | count
  | h0
  | h1
  | h2
  | h3
  | dout0
  | dout1
  | dout2
  | dout3
deriving DecidableEq, Repr

/-- One access of a host program to the register window (30_encoding.md R89): every statement of the syntax is one of these, a
command being a write of its word to `CTRL`. -/
inductive Access where
  /-- `write REG, v`. -/
  | write (r : Reg) (v : Word)
  /-- `read REG -> x`: the value the host names is in `rdata` after the step. -/
  | read (r : Reg)
  /-- `wait`: "read `STATUS` repeatedly until `STATUS.BUSY = 0`". -/
  | wait
deriving DecidableEq, Repr

/-- What happens next outside the core. The list of them in `State` is the schedule: bus order (20_memory.md R64), with the
completion of a running command at any place in it (70_reset_and_hazards.md R240; log entry 2). -/
inductive Event where
  /-- `LATENCY` of the running command elapses (43_commands.md R161); with none running, time passes. -/
  | elapse
  /-- The host program takes its turn on the bus: its next access, or one more read of its `wait` (30_encoding.md R89; log entry
  13). -/
  | host
  /-- A bus master reads `size` bytes at the bus address `addr` (20_memory.md R52, R177). -/
  | read (addr size : Nat)
  /-- A bus master writes `size` bytes at the bus address `addr`, of value `v` (20_memory.md R52, R178). -/
  | write (addr size : Nat) (v : Word)
  /-- An agent stores the byte `v` at `addr` of the input buffer space; the read port may not see it yet (R66). -/
  | store (addr : Nat) (v : Byte)
  /-- The platform's fence: every store made so far becomes visible to the read port (R66, first duty). -/
  | fence
  /-- The platform puts another map behind the read port (20_memory.md R63). -/
  | remap (regions : List Region)
  /-- The reset input is asserted and released, as one event (70_reset_and_hazards.md R230, R231). How long it stays asserted,
  and what an access meanwhile does, the spec leaves open: DESIGN CHOICE, log entry 14. -/
  | reset
deriving DecidableEq, Repr

/-- The machine: the core's elements (10_state.md R40), its build parameters (00_scope.md R5), the platform's side of the
absorber's read port, and the model's own schedule. -/
structure State where
  /-- The build parameters (R5). -/
  cfg : Config
  /-- `H[0..3]` (R20). -/
  h : Quad
  /-- `SSEED` (R23). -/
  sseed : Word
  /-- `INNER` (R24): `false` selects mixA, `true` selects mixB. -/
  inner : Bool
  /-- `LBUF[0..15]` (R25). -/
  lbuf : Vector Byte 16
  /-- `LFILL` (R25). -/
  lfill : Fin 16
  /-- `COUNT` (R26). -/
  count : Word
  /-- `WIDTH` (R27). -/
  width : Width
  /-- `PHASE` (R28). -/
  phase : Phase
  /-- `STATUS.OVR` (R35, 60_exceptions.md R205). -/
  ovr : Bool
  /-- `STATUS.ERR` (60_exceptions.md R200). -/
  err : ResultCode
  /-- `DOUT[0..3]` (R29). -/
  dout : Quad
  /-- `SEED` (R30). -/
  seed : Word
  /-- `LENGTH` (R31). -/
  length : Word
  /-- `SRC_ADDR` (R32). -/
  srcAddr : Word
  /-- `DIN0` (R33). -/
  din0 : Word
  /-- `DIN1` (R33). -/
  din1 : Word
  /-- The issued command that has not completed, with its latched operands (R39, R160); `BUSY` (R35) is whether there is one. -/
  running : Option Latched
  /-- The input buffer space as the read port sees it (20_memory.md R56). -/
  mem : Memory
  /-- Stores made and not yet visible to the read port, oldest first (20_memory.md R66). -/
  staged : List Host.Cell
  /-- The platform's map behind the read port, where it is not ordinary memory (20_memory.md R63, R66). -/
  regions : List Region
  /-- The schedule: what happens next outside the core. The model's own field, log entry 2. -/
  events : List Event
  /-- What the host program has still to do, the next access first (30_encoding.md R89). The model's own field, log entry 13. -/
  program : List Access
  /-- The word the last host read returned. The model's own field, log entry 5. -/
  rdata : Word
  /-- How many free words have been drawn. The model's own field, log entry 4. -/
  draws : Nat
deriving DecidableEq, Repr

/-- Why a run ends in a fault. No command of the core raises one (60_exceptions.md R206). -/
inductive Fault where
  /-- Raised by a bus access at an address that is not in the core's window `[REG_BASE, REG_BASE + 256)`: the core has no such
  address (20_memory.md R50). Safe; log entry 9. -/
  | outsideWindow
  /-- Raised by another agent's store at an address at or above `2^AW`: the input buffer space has no such byte (20_memory.md
  R56). Safe; log entry 9. -/
  | outsideBuffer
deriving DecidableEq, Repr

/-- Why an action has no meaning. -/
inductive Refusal where
  /-- Raised by an arm of `exec` for a command that has no meaning yet, by its mnemonic; no arm does. Safe. -/
  | notModelled (mnemonic : String)
  /-- Raised by a host access in the window that is not an aligned 64-bit access: "A model refuses such an access: it gives it
  no meaning and marks the run as refused" (20_memory.md R52, 93_implementation_defined.md I6). Safe. -/
  | narrowAccess
deriving DecidableEq, Repr

/-- The machine right after reset (70_reset_and_hazards.md R230, 10_state.md R40): every element of the core at the value the
spec gives. The build is the open constant `Config.build` (log entry 1). The platform's side and the model's own fields, for
which the spec has no reset, are empty or 0: log entries 2, 4, 5, 6, 7, 8, 13. -/
def State.reset : State where
  cfg := Config.build
  h := ⟨0, 0, 0, 0⟩
  sseed := 0
  inner := false
  lbuf := Vector.replicate 16 0
  lfill := 0
  count := 0
  width := .w64
  phase := .idle
  ovr := false
  err := .ok
  dout := ⟨0, 0, 0, 0⟩
  seed := 0
  length := 0
  srcAddr := 0
  din0 := 0
  din1 := 0
  running := none
  mem := []
  staged := []
  regions := []
  events := []
  program := []
  rdata := 0
  draws := 0

end Sys2Proof.Machine
end

