-- ==== Sys2Proof/Machine/Ops.lean ====
section
/-! DEFINITION. The shared operations: byte packing and rotation (spec 00_scope.md R9, R10), the input buffer space
(20_memory.md R56), the two mixing engines (40_mixing.md R103, R105), initialisation, lane absorption and the lane scheduler
(41_absorption.md R120 to R127), tail absorption, close and extraction (42_finalization.md R140 to R145), issue and latching
(43_commands.md R160), and the two ways a command completes: accepted and rejected (R162, R164). -/

namespace Sys2Proof.Machine

/-! ### Named constants (00_scope.md R6) -/

/-- mixA's rotation of `H[0]`. -/
def mixARot0 : Nat := 23
/-- mixA's rotation of `H[1]`. -/
def mixARot1 : Nat := 29
/-- mixA's rotation of `H[2]`. -/
def mixARot2 : Nat := 31
/-- mixA's rotation of `H[3]`. -/
def mixARot3 : Nat := 37
/-- mixB's rotation of `H[1]`. -/
def mixBRot1 : Nat := 23
/-- mixB's rotation of `H[2]`. -/
def mixBRot2 : Nat := 23
/-- Initialisation offset of `H[0]`. -/
def initOff0 : Word := 1
/-- Initialisation offset of `H[1]`. -/
def initOff1 : Word := 3
/-- Initialisation offset of `H[2]`. -/
def initOff2 : Word := 5
/-- Initialisation offset of `H[3]`. -/
def initOff3 : Word := 7

/-! ### Words and bytes -/

/-- `rotr(x, k)`, the 64-bit rotate right (00_scope.md R9). -/
def rotr (x : Word) (k : Nat) : Word := (x >>> k) ||| (x <<< (64 - k))

/-- `sum over k < n of zext_64(b[k]) << 8k` (00_scope.md R10; 10_state.md R33; 30_encoding.md R90). -/
def packBytes (b : Nat → Byte) : Nat → Word
  | 0 => 0
  | n + 1 => packBytes b n + ((b n).setWidth 64 <<< (8 * n))

/-- Byte `k` of a word, `g[8k+7:8k]`. -/
def byteOf (g : Word) (k : Nat) : Byte := g.extractLsb' (8 * k) 8

/-- `rd64(b[0..7])` under `ENDIAN` (00_scope.md R10). -/
def rd64 (e : Endian) (b : Nat → Byte) : Word :=
  match e with
  | .le => packBytes b 8
  | .be => packBytes (fun k => b (7 - k)) 8

/-- `wr64(g)[k]` under `ENDIAN`, `k` in 0..7 (00_scope.md R10). -/
def wr64 (e : Endian) (g : Word) (k : Nat) : Byte :=
  match e with
  | .le => byteOf g k
  | .be => byteOf g (7 - k)

/-- `byteswap64(g)` (42_finalization.md R145): byte `j` of the result is byte `7 - j` of `g`. -/
def byteswap64 (g : Word) : Word := packBytes (fun j => byteOf g (7 - j)) 8

/-- Word `k` of a register file of four. -/
def Quad.get (x : Quad) (k : Fin 4) : Word :=
  match k with
  | 0 => x.w0
  | 1 => x.w1
  | 2 => x.w2
  | 3 => x.w3

/-- The register file with word `k` replaced. -/
def Quad.set (x : Quad) (k : Fin 4) (v : Word) : Quad :=
  match k with
  | 0 => { x with w0 := v }
  | 1 => { x with w1 := v }
  | 2 => { x with w2 := v }
  | 3 => { x with w3 := v }

/-- A register file of four zeros. -/
def Quad.zero : Quad := ⟨0, 0, 0, 0⟩

/-! ### The input buffer space (20_memory.md R56) -/

/-- The canonical form of the list: addresses strictly rising. An unlisted address has no listed value, so no entry can equal
what it reads as (log entry 6). -/
abbrev Memory.wf (m : Memory) : Prop := m.Pairwise (fun x y => x.1 < y.1)

/-- The listed byte at an address; `none` where nothing has written. -/
def Memory.byte? : Memory → Nat → Option Byte
  | [], _ => none
  | (b, v) :: m, a => if a = b then some v else Memory.byte? m a

/-- A byte store, which keeps the canonical form. -/
def Memory.store : Memory → Nat → Byte → Memory
  | [], a, v => [(a, v)]
  | (b, x) :: m, a, v =>
    if a < b then (a, v) :: (b, x) :: m
    else if a = b then (a, v) :: m
    else (b, x) :: Memory.store m a v

/-- `AW` (00_scope.md R5). -/
def addrWidth (c : Config) : Nat := c.awPred.val + 1

/-- The byte the read port returns for address `a` (20_memory.md R56): the byte written there, else the free byte that power-on
left (log entry 6). -/
def State.portByte (s : State) (a : Nat) : Byte := (Memory.byte? s.mem a).getD (Config.powerOnByte a)

/-- `MemRead(addr, n)` (00_scope.md R11): byte `k` is the byte at `addr + k`. -/
def State.memRead (s : State) (addr : Nat) : Nat → Byte := fun k => s.portByte (addr + k)

/-- Whether a region of the platform's map and the buffer `[A, A + L)` share a byte. -/
def Region.touches (r : Region) (A L : Nat) : Bool :=
  decide (0 < r.size) && decide (0 < L) && decide (A < r.base + r.size) && decide (r.base < A + L)

/-- Some read of the buffer is never answered (20_memory.md R63). -/
def State.unanswered (s : State) (A L : Nat) : Bool :=
  s.regions.any (fun r => decide (r.kind = .silent) && r.touches A L)

/-! ### The host's duties on the buffer of a command (20_memory.md R66; log entry 7) -/

/-- Byte `a` belongs to the buffer `[A, A + L)`. -/
def Latched.covers (l : Latched) (a : Nat) : Bool :=
  decide (l.srcAddr.toNat ≤ a) && decide (a < l.srcAddr.toNat + l.length.toNat)

/-- The values byte `a` of the buffer may have held during the command, where the first or the second duty is broken for it; none
where they are kept. -/
def Latched.heldAt (l : Latched) (a : Nat) : List Byte :=
  (l.held.filter (fun c => l.covers a && c.1 == a)).map (fun c => c.2)

/-- Byte `a` of the buffer has lain where reads have side effects: the third duty is broken for it. -/
def Latched.unstableAt (l : Latched) (a : Nat) : Bool :=
  l.covers a && l.unstable.any (fun r => decide (r.base ≤ a) && decide (a < r.base + r.size))

/-- A duty is broken for byte `a` of the buffer: an affected byte of R66. -/
def Latched.affected (l : Latched) (a : Nat) : Bool := !(l.heldAt a).isEmpty || l.unstableAt a

/-- A duty is broken: some byte of the buffer is affected. -/
def Latched.broken (l : Latched) : Bool :=
  l.held.any (fun c => l.covers c.1) || l.unstable.any (fun r => r.touches l.srcAddr.toNat l.length.toNat)

/-- The mark of a broken duty: the bytes of the buffer among `cells` may have held the values listed there, and the regions with
side effects among `rs` stand behind the buffer. -/
def Latched.mark (l : Latched) (cells : List Host.Cell) (rs : List Region) : Latched :=
  { l with
    held := l.held ++ cells.filter (fun c => l.covers c.1)
    unstable := l.unstable ++
      rs.filter (fun r => decide (r.kind = .sideEffect) && r.touches l.srcAddr.toNat l.length.toNat) }

/-- The values the bytes that `cells` stores to hold: as the read port sees them, and as stored. -/
def State.pending (s : State) (cells : List Host.Cell) : List Host.Cell := cells.flatMap (fun c => [(c.1, s.portByte c.1), c])

/-! ### The mixing engines -/

/-- mixA (40_mixing.md R103). -/
def mixA (c : Config) (h : Quad) : Quad :=
  let a := rotr (h.w0 * c.p) mixARot0 * c.q
  let b := h.w1 ^^^ a
  let b := rotr (b * c.r) mixARot1 * c.s
  let e := rotr (h.w2 * c.t) mixARot2 * c.u
  let d := h.w3 ^^^ e
  let d := rotr (d * c.v) mixARot3 * c.w
  ⟨a, b, e, d⟩

/-- mixB (40_mixing.md R105): only `H[1]` and `H[2]` change; the seed is the session's (R106). -/
def mixB (c : Config) (sseed : Word) (h : Quad) : Quad :=
  let a := rotr (h.w1 * c.v) mixBRot1 * c.w
  let b := h.w2 ^^^ (a + sseed)
  let b := rotr (b * c.r) mixBRot2 * c.s
  { h with w1 := a, w2 := b }

/-! ### Initialisation and lanes -/

/-- The hash state `init(s, L)` leaves (41_absorption.md R120). -/
def initState (s L : Word) : Quad := ⟨s + L + initOff0, s + L + initOff1, s + L + initOff2, s + L + initOff3⟩

/-- What `lane(b[0..15])` does to `H` (41_absorption.md R121). -/
def laneState (c : Config) (sseed : Word) (inner : Bool) (b : Nat → Byte) (h : Quad) : Quad :=
  let g := rd64 c.endian b
  let h := { h with w0 := h.w0 - g, w1 := h.w1 + g }
  let g := rd64 c.endian (fun k => b (8 + k))
  let h := { h with w2 := h.w2 + g, w3 := h.w3 - g }
  if inner then mixB c sseed h else mixA c h

/-- `init(s, L)` (41_absorption.md R120): `H` and `INNER <- 0`. -/
def State.initHash (st : State) (s L : Word) : State := { st with h := initState s L, inner := false }

/-- `lane(b[0..15])` (41_absorption.md R121): `H`, and `INNER` flips. -/
def State.lane (st : State) (b : Nat → Byte) : State :=
  { st with h := laneState st.cfg st.sseed st.inner b st.h, inner := !st.inner }

/-- Byte `k` of `LBUF`. -/
def State.lbufByte (st : State) (k : Nat) : Byte := st.lbuf[k]?.getD 0

/-- One turn of the loop of `push` (41_absorption.md R123): the byte goes to `LBUF[LFILL]`; a full buffer is absorbed. -/
def State.pushByte (st : State) (d : Byte) : State :=
  let st := { st with lbuf := st.lbuf.set st.lfill.val d }
  if st.lfill.val = 15 then { st.lane st.lbufByte with lfill := 0 }
  else { st with lfill := st.lfill + 1 }

/-- The loop of `push` over `d[0..n-1]`, in ascending order (41_absorption.md R123). -/
def State.pushBytes (st : State) (d : Nat → Byte) : Nat → State
  | 0 => st
  | n + 1 => (st.pushBytes d n).pushByte (d n)

/-- `push(d, n)` (41_absorption.md R123): the loop, then `COUNT <- COUNT + n`. -/
def State.push (st : State) (d : Nat → Byte) (n : Nat) : State :=
  let st := st.pushBytes d n
  { st with count := st.count + BitVec.ofNat 64 n }

/-- The lane loop of `scan(A, L)` for the first `m` lanes (41_absorption.md R127): lane `k` is `MemRead(A + 16k, 16)`. -/
def State.scanLanes (st : State) (A : Nat) : Nat → State
  | 0 => st
  | m + 1 => (st.scanLanes A m).lane (st.memRead (A + 16 * m))

/-! ### Tail absorption, close, extraction -/

/-- One row of the tail map (42_finalization.md R140). -/
structure TailRow where
  word : Fin 4
  shift : Nat
  op : TailOp
deriving DecidableEq, Repr

/-- The tail map (42_finalization.md R140): row `i` is for tail byte `i`, `i` in 0..14. -/
def tailMap (t : TailOps) : List TailRow :=
  [⟨2, 0, .add⟩, ⟨1, 8, t.op1⟩, ⟨0, 16, t.op2⟩, ⟨3, 24, t.op3⟩,
   ⟨2, 32, t.op4⟩, ⟨1, 40, t.op5⟩, ⟨0, 48, t.op6⟩, ⟨3, 0, .add⟩,
   ⟨2, 8, t.op8⟩, ⟨1, 16, t.op9⟩, ⟨0, 24, t.op10⟩, ⟨3, 32, t.op11⟩,
   ⟨2, 40, t.op12⟩, ⟨1, 48, t.op13⟩, ⟨0, 56, t.op14⟩]

/-- A tail operation on the target word and the shifted byte (42_finalization.md R140). -/
def tailApply (op : TailOp) (x y : Word) : Word :=
  match op with
  | .add => x + y
  | .or => x ||| y
  | .xor => x ^^^ y

/-- Tail byte `i` folded into its target word; there is no tail byte past 14. -/
def tailByte (t : TailOps) (i : Nat) (b : Byte) (h : Quad) : Quad :=
  match (tailMap t)[i]? with
  | some row => h.set row.word (tailApply row.op (h.get row.word) (b.setWidth 64 <<< row.shift))
  | none => h

/-- `tailabsorb(t[0..r-1])` (42_finalization.md R141): from byte `r - 1` down to byte 0. -/
def tailAbsorb (t : TailOps) (b : Nat → Byte) : Nat → Quad → Quad
  | 0, h => h
  | i + 1, h => tailAbsorb t b i (tailByte t i (b i) h)

/-- `close(t[0..r-1])` (42_finalization.md R143): mixB, the tail, mixA, mixB, mixA. -/
def closeState (c : Config) (sseed : Word) (b : Nat → Byte) (r : Nat) (h : Quad) : Quad :=
  mixA c (mixB c sseed (mixA c (tailAbsorb c.tail b r (mixB c sseed h))))

/-- `emit(k, g)` (42_finalization.md R145). -/
def emit (e : Endian) (k : Fin 4) (g : Word) (dout : Quad) : Quad :=
  dout.set k (match e with | .le => g | .be => byteswap64 g)

/-- `extract(w)` (42_finalization.md R144): the hash state it leaves, and `DOUT`. -/
def extract (c : Config) (sseed : Word) (w : Width) (h dout : Quad) : Quad × Quad :=
  let dout := emit c.endian 0 (0 - h.w2 - h.w3) dout
  match w with
  | .w64 => (h, dout)
  | .w128 =>
    let h := mixA c h
    (h, emit c.endian 1 (0 - h.w3 - h.w2) dout)
  | .w256 =>
    let h := mixA c h
    let dout := emit c.endian 1 (0 - h.w3 - h.w2) dout
    let h := mixA c (mixB c sseed (mixA c h))
    let dout := emit c.endian 2 (0 - h.w3 - h.w2) dout
    let h := mixA c h
    (h, emit c.endian 3 (0 - h.w3 - h.w2) dout)

/-- `close` then `extract` on the state, as FINAL and ONESHOT apply them (43_commands.md R171, R173). -/
def State.closeAndExtract (st : State) (b : Nat → Byte) (r : Nat) (w : Width) : State :=
  let x := extract st.cfg st.sseed w (closeState st.cfg st.sseed b r st.h) st.dout
  { st with h := x.1, dout := x.2 }

/-! ### Issue, latching, completion -/

/-- `BUSY` (10_state.md R35): a command has been issued and has not completed. -/
def State.busy (s : State) : Bool := s.running.isSome

/-- What the core latches when `cw` is issued (43_commands.md R160). A duty on the buffer is broken already for a byte whose store
is not visible yet, or whose reads have side effects (20_memory.md R66, first and third duty). -/
def State.latch (s : State) (cw : Word) : Latched :=
  Latched.mark
    { cw := cw, seed := s.seed, length := s.length, srcAddr := s.srcAddr, din0 := s.din0, din1 := s.din1, held := [],
      unstable := [] }
    (s.pending s.staged) s.regions

/-- The latched operands the command `cw` runs on (43_commands.md R160, R161): those held since its issue; with none held, the
ones its issue in this state would latch (log entry 10). -/
def State.latched (s : State) (cw : Word) : Latched := s.running.getD (s.latch cw)

/-- The issue of a command (43_commands.md R160): the operands are latched and `BUSY <- 1`. -/
def State.issue (s : State) (cw : Word) : State := { s with running := some (s.latch cw) }

/-- A step's outcome. -/
abbrev Result := Host.Outcome State Fault Refusal

/-- `reject <Code>` (00_scope.md R11; 43_commands.md R162, R164): `ERR <- code` and nothing else, `BUSY <- 0` in the same step
(R161). The core has no trap to take (60_exceptions.md R206); this is what stands in its place. -/
def reject (code : ResultCode) (s : State) : Result := .next { s with err := code, running := none }

/-- An accepted command completes with the effects of `body` (43_commands.md R161, R162): `ERR <- OK`, and `BUSY <- 0` in the
same step. -/
def accept (body : State) : Result := .next { body with err := .ok, running := none }

/-- A command that waits for a read that is never answered (20_memory.md R63, 70_reset_and_hazards.md R245): it does not
complete and `BUSY` stays 1 (log entry 8). -/
def stall (cw : Word) (s : State) : Result := .next { s with running := some (s.latched cw) }

/-- The result code of a word that the decoder rejects (30_encoding.md R87). -/
def codeOfDecodeError : DecodeError → ResultCode
  | .badOp => .badOp
  | .badWidth => .badWidth
  | .badCount => .badCount

/-! ### Free values (70_reset_and_hazards.md R241; 93_implementation_defined.md I3, I5) -/

/-- The `k`-th free word of this step (log entry 4). -/
def State.freeWord (s : State) (k : Nat) : Word := Config.freeWord (s.draws + k)

/-- Four free words, from the `k`-th on. -/
def State.freeQuad (s : State) (k : Nat) : Quad :=
  ⟨s.freeWord k, s.freeWord (k + 1), s.freeWord (k + 2), s.freeWord (k + 3)⟩

/-- `LBUF` with `r` tail bytes, zeros above (43_commands.md R173). -/
def tailBuffer (b : Nat → Byte) (r : Nat) : Vector Byte 16 := Vector.ofFn (fun i => if i.val < r then b i.val else 0)

end Sys2Proof.Machine
end

