-- ==== Sys2Proof/Machine/Operands.lean ====
section
/-! DEFINITION. The operand forms of the commands (spec 30_encoding.md R81 to R84; 43_commands.md R163, R169, R174). -/

namespace Sys2Proof.Machine

/-- `width(W)` (30_encoding.md R83; 43_commands.md R163): 0, 1, 2 for 64, 128, 256 bits; `W = 3` is unsupported. -/
def widthOf (w : BitVec 2) : Option Width :=
  match w.toNat with
  | 0 => some .w64
  | 1 => some .w128
  | 2 => some .w256
  | _ => none

/-- The code of a width, as `STATUS.WIDTH` shows it (10_state.md R27). -/
def Width.code : Width → BitVec 2
  | .w64 => 0#2
  | .w128 => 1#2
  | .w256 => 2#2

/-- The digest words of a width, `w / 64` (42_finalization.md R144). -/
def Width.words : Width → Nat
  | .w64 => 1
  | .w128 => 2
  | .w256 => 4

/-- Data byte `k` of ABSORB (10_state.md R33; 43_commands.md R168, R169): bytes 0 to 7 from `DIN0`, 8 to 15 from `DIN1`. -/
def dataByte (d0 d1 : Word) (k : Nat) : Byte := if k < 8 then byteOf d0 k else byteOf d1 (k - 8)

/-- ONESHOT's buffer lies inside the input buffer space (43_commands.md R174; 20_memory.md R59): `A < 2^AW` and
`A + L <= 2^AW`, the sum in unbounded integers. Address 0 with no byte is inside every space and is looked at first, so that
this one case can be evaluated without knowing `AW`. -/
def inRange (aw A L : Nat) : Bool := (A + L == 0) || (decide (A < 2 ^ aw) && decide (A + L ≤ 2 ^ aw))

/-- The state checks of ABSORB after decode (60_exceptions.md R203): NOSESSION, then CLOSED. -/
def absorbCheck (s : State) : ResultCode :=
  match s.phase with
  | .idle => .noSession
  | .opened => .ok
  | .done => .closed

/-- The state check of FINAL (60_exceptions.md R203): NOSESSION. In `DONE` it passes. -/
def finalCheck (s : State) : ResultCode :=
  match s.phase with
  | .idle => .noSession
  | .opened => .ok
  | .done => .ok

/-- The state check of ONESHOT (60_exceptions.md R203; 43_commands.md R174): RANGE. -/
def rangeCheck (s : State) (l : Latched) : ResultCode :=
  if inRange (addrWidth s.cfg) l.srcAddr.toNat l.length.toNat then .ok else .range

end Sys2Proof.Machine
end

