-- ==== Sys2Proof/Machine/Flags.lean ====
section
/-! DEFINITION. The flag-like state of the core (spec 10_state.md R35, R38): the codes of the `STATUS` fields, the whole word,
and the fields that may read as any value while `BUSY = 1` (70_reset_and_hazards.md R241). The core has no condition codes. -/

namespace Sys2Proof.Machine

/-- The code of a phase (10_state.md R28). -/
def Phase.code : Phase → BitVec 2
  | .idle => 0#2
  | .opened => 1#2
  | .done => 2#2

/-- The number of a result code (60_exceptions.md R200). -/
def ResultCode.code : ResultCode → BitVec 4
  | .ok => 0#4
  | .badOp => 1#4
  | .badWidth => 2#4
  | .badCount => 3#4
  | .noSession => 4#4
  | .closed => 5#4
  | .range => 6#4

/-- A field of `width` bits placed at bit `lo` of a 64-bit register. -/
def fieldAt {n : Nat} (v : BitVec n) (lo : Nat) : Word := v.setWidth 64 <<< lo

/-- `STATUS` (10_state.md R35): `BUSY` at 0, `PHASE` at 2:1, `INNER` at 3, `LFILL` at 7:4, `WIDTH` at 9:8, `OVR` at 10, `ERR`
at 19:16; bits 15:11 and 63:20 read 0. -/
def State.status (s : State) : Word :=
  fieldAt (BitVec.ofBool s.busy) 0 ||| fieldAt s.phase.code 1 ||| fieldAt (BitVec.ofBool s.inner) 3 |||
    fieldAt (BitVec.ofNat 4 s.lfill.val) 4 ||| fieldAt s.width.code 8 ||| fieldAt (BitVec.ofBool s.ovr) 10 |||
    fieldAt s.err.code 16

/-- The bits of `STATUS` that read as any value while `BUSY = 1` (70_reset_and_hazards.md R241): the fields other than `BUSY`.
The reserved bits still read 0 (93_implementation_defined.md I16; log entry 4). -/
def statusAnyWhileBusy : Word := 0xF07FE

/-- A dropped command sets the sticky `OVR` and nothing else (60_exceptions.md R205). -/
def State.setOverrun (s : State) : State := { s with ovr := true }

end Sys2Proof.Machine
end

