-- ==== Sys2Proof/Machine/Buffer.lean ====
section
/-! DEFINITION. The meaning of ONESHOT, the one-shot buffer absorber (spec 43_commands.md R173, R174; 41_absorption.md R127). -/

namespace Sys2Proof.Machine

/-- The body of ONESHOT (43_commands.md R173) with the latched seed `sd`, length `L` and address `A`. -/
def State.hashBuffer (s : State) (w : Width) (sd L : Word) (A : Nat) : State :=
  let n := L.toNat
  let r := n % 16
  let tail := s.memRead (A + 16 * (n / 16))
  let s := { s with sseed := sd, width := w, dout := Quad.zero }
  let s := (s.initHash sd L).scanLanes A (n / 16)
  let s := s.closeAndExtract tail r w
  { s with
    lbuf := tailBuffer tail r, lfill := Fin.ofNat 16 r,
    count := L, phase := .done }

/-- What the absorber reads at `a` where a duty may be broken (20_memory.md R66): an unaffected byte reads as the byte there; "each
affected byte may read as any of the values it held during the command", which one the free word `x` says; where reads have side
effects these are not known, and it reads as any byte (log entry 7). -/
def State.affectedRead (s : State) (l : Latched) (x : Word) (a : Nat) : Byte :=
  if l.unstableAt a then x.setWidth 8
  else (l.heldAt a).getD (x.toNat % (l.heldAt a).length) (s.portByte a)

/-- ONESHOT where a host duty on the buffer is broken (20_memory.md R66; 93_implementation_defined.md I5): "`any value` for the
digest, and for `H` and `DOUT` after the command". "The status fields are still as rule R173 gives", and so is the rest: `LBUF` keeps
the tail as it was read, byte by byte. DESIGN CHOICE (log entry 7): the reads leave the bytes of the buffer space as they were, also
in a region where reads have side effects; the spec does not say what such a read leaves there. -/
def State.hashBroken (s : State) (w : Width) (l : Latched) : State :=
  let n := l.length.toNat
  let r := n % 16
  { s with
    sseed := l.seed, width := w,
    h := s.freeQuad 0, dout := s.freeQuad 4,
    inner := decide (n / 16 % 2 = 1),
    lbuf := tailBuffer (fun k => s.affectedRead l (s.freeWord (8 + k)) (l.srcAddr.toNat + 16 * (n / 16) + k)) r
    lfill := Fin.ofNat 16 r,
    count := l.length, phase := .done,
    draws := s.draws + 24 }

/-- `ONESHOT` (43_commands.md R173, R174): `W = 3` is rejected with BADWIDTH, a buffer outside the input buffer space with
RANGE. A buffer with a byte whose read is never answered leaves the command uncompleted (20_memory.md R63). DESIGN CHOICE (log entry 8):
whether a read is answered is judged by the platform's map when the latency elapses, not by an earlier one; when the absorber reads is
implementation-defined (R57, 93_implementation_defined.md I11), so a map that turns silent while the command runs leaves it
uncompleted, and one that turns answered lets it complete. -/
def execOneshot (w : BitVec 2) (s : State) : Result :=
  match widthOf w with
  | none => reject .badWidth s
  | some wd =>
    let l := s.latched (encode (.oneshot w))
    match rangeCheck s l with
    | .ok =>
      if s.unanswered l.srcAddr.toNat l.length.toNat then stall (encode (.oneshot w)) s
      else if l.broken then accept (s.hashBroken wd l)
      else accept (s.hashBuffer wd l.seed l.length l.srcAddr.toNat)
    | code => reject code s

end Sys2Proof.Machine
end

