-- ==== Sys2Proof/Machine/Control.lean ====
section
/-! DEFINITION. The meanings of NOP and CLEAR (spec 43_commands.md R165, R176). -/

namespace Sys2Proof.Machine

/-- `NOP` (43_commands.md R165): `ERR <- OK`; nothing else changes, in every phase. -/
def execNop (s : State) : Result := accept s

/-- What CLEAR resets (43_commands.md R176): everything of the core but the host operand registers. -/
def State.clearCore (s : State) : State :=
  { s with
    h := Quad.zero, sseed := 0, inner := false,
    lbuf := Vector.replicate 16 0, lfill := 0, count := 0,
    width := .w64, dout := Quad.zero,
    phase := .idle, ovr := false }

/-- `CLEAR` (43_commands.md R176): accepted in every phase. -/
def execClear (s : State) : Result := accept s.clearCore

end Sys2Proof.Machine
end

