-- ==== Sys2Proof/Machine/Session.lean ====
section
/-! DEFINITION. The meanings of the streaming commands INIT, ABSORB and FINAL (spec 43_commands.md R166 to R172). -/

namespace Sys2Proof.Machine

/-- The body of INIT (43_commands.md R166) with the latched seed and length. -/
def State.openSession (s : State) (w : Width) (seed L : Word) : State :=
  { s.initHash seed L with
    sseed := seed, width := w,
    lbuf := Vector.replicate 16 0, lfill := 0, count := 0, dout := Quad.zero, phase := .opened }

/-- `INIT` (43_commands.md R166, R167): accepted in every phase; `W = 3` is rejected with BADWIDTH (30_encoding.md R83). -/
def execInit (w : BitVec 2) (s : State) : Result :=
  match widthOf w with
  | none => reject .badWidth s
  | some wd => accept (s.openSession wd (s.latched (encode (.init w))).seed (s.latched (encode (.init w))).length)

/-- `ABSORB` (43_commands.md R168, R169): `N > 16` is rejected with BADCOUNT (30_encoding.md R84), then the state checks. -/
def execAbsorb (n : BitVec 5) (s : State) : Result :=
  if 16 < n.toNat then reject .badCount s
  else match absorbCheck s with
    | .ok =>
      let l := s.latched (encode (.absorb n))
      accept (s.push (dataByte l.din0 l.din1) n.toNat)
    | code => reject code s

/-- The body of FINAL (43_commands.md R171): nothing in `DONE`; else close with `LBUF[0..LFILL-1]`, extract at `WIDTH`,
`PHASE <- DONE`. -/
def State.finish (s : State) : State :=
  match s.phase with
  | .done => s
  | _ => { s.closeAndExtract s.lbufByte s.lfill.val s.width with phase := .done }

/-- `FINAL` (43_commands.md R171, R172). -/
def execFinal (s : State) : Result :=
  match finalCheck s with
  | .ok => accept s.finish
  | code => reject code s

end Sys2Proof.Machine
end

