-- ==== Sys2Proof/Machine/Dispatch.lean ====
section
/-! DEFINITION. The dispatch of a command to its meaning (spec 43_commands.md R162). -/

namespace Sys2Proof.Machine

/-- One command, performed on its latched operands (43_commands.md R161, R162). -/
def exec (i : Instr) (s : State) : Host.Outcome State Fault Refusal :=
  match i with
  | .nop => Sys2Proof.Machine.execNop s
  | .init w => Sys2Proof.Machine.execInit w s
  | .absorb n => Sys2Proof.Machine.execAbsorb n s
  | .final => Sys2Proof.Machine.execFinal s
  | .oneshot w => Sys2Proof.Machine.execOneshot w s
  | .clear => Sys2Proof.Machine.execClear s

end Sys2Proof.Machine
end

