-- ==== Sys2Proof/Machine/Registers.lean ====
section
/-! DEFINITION. The host's register window: its map (spec 20_memory.md R51), what a 64-bit read returns (43_commands.md R177;
70_reset_and_hazards.md R241) and what a 64-bit write does (43_commands.md R178; 60_exceptions.md R205). -/

namespace Sys2Proof.Machine

/-- The byte offset of a register from `REG_BASE` (20_memory.md R51). -/
def Reg.offset : Reg → Nat
  | .ctrl => 0x00
  | .status => 0x08
  | .seed => 0x10
  | .length => 0x18
  | .srcAddr => 0x20
  | .din0 => 0x28
  | .din1 => 0x30
  | .count => 0x38
  | .h0 => 0x40
  | .h1 => 0x48
  | .h2 => 0x50
  | .h3 => 0x58
  | .dout0 => 0x60
  | .dout1 => 0x68
  | .dout2 => 0x70
  | .dout3 => 0x78

/-- Every register, in the order of the map. -/
def Reg.all : List Reg :=
  [.ctrl, .status, .seed, .length, .srcAddr, .din0, .din1, .count, .h0, .h1, .h2, .h3, .dout0, .dout1, .dout2, .dout3]

/-- The register at an offset; `none` at a reserved one (20_memory.md R53). -/
def regAt (off : Nat) : Option Reg := Reg.all.find? (fun r => decide (r.offset = off))

/-- The value of a register (43_commands.md R177; 10_state.md R29 to R36). `CTRL` reads 0. -/
def State.regValue (s : State) : Reg → Word
  | .ctrl => 0
  | .status => s.status
  | .seed => s.seed
  | .length => s.length
  | .srcAddr => s.srcAddr
  | .din0 => s.din0
  | .din1 => s.din1
  | .count => s.count
  | .h0 => s.h.w0
  | .h1 => s.h.w1
  | .h2 => s.h.w2
  | .h3 => s.h.w3
  | .dout0 => s.dout.w0
  | .dout1 => s.dout.w1
  | .dout2 => s.dout.w2
  | .dout3 => s.dout.w3

/-- The bits of a register that read as any value while `BUSY = 1` (70_reset_and_hazards.md R241). -/
def Reg.anyWhileBusy : Reg → Word
  | .status => statusAnyWhileBusy
  | .count | .h0 | .h1 | .h2 | .h3 | .dout0 | .dout1 | .dout2 | .dout3 => BitVec.allOnes 64
  | .ctrl | .seed | .length | .srcAddr | .din0 | .din1 => 0

/-- A host read of a register (43_commands.md R177; 70_reset_and_hazards.md R241): the value goes to the host (`rdata`). While
`BUSY = 1` the bits that R241 leaves open are drawn freshly at each read. -/
def State.readReg (s : State) (r : Reg) : State :=
  if s.busy && decide (r.anyWhileBusy ≠ 0) then
    { s with
      rdata := (s.regValue r &&& ~~~r.anyWhileBusy) ||| (s.freeWord 0 &&& r.anyWhileBusy),
      draws := s.draws + 1 }
  else { s with rdata := s.regValue r }

/-- A 64-bit read at an offset of the window (20_memory.md R53): reserved offsets read 0. -/
def State.hostRead (s : State) (off : Nat) : State :=
  match regAt off with
  | some r => s.readReg r
  | none => { s with rdata := 0 }

/-- A host write of a register (43_commands.md R160, R178; 60_exceptions.md R205): the operand registers store all 64 bits,
`CTRL` issues a command or, while `BUSY = 1`, is dropped; the other registers ignore it. -/
def State.writeReg (s : State) (r : Reg) (v : Word) : State :=
  match r with
  | .ctrl => if s.busy then s.setOverrun else s.issue v
  | .seed => { s with seed := v }
  | .length => { s with length := v }
  | .srcAddr => { s with srcAddr := v }
  | .din0 => { s with din0 := v }
  | .din1 => { s with din1 := v }
  | .status | .count | .h0 | .h1 | .h2 | .h3 | .dout0 | .dout1 | .dout2 | .dout3 => s

/-- A 64-bit write at an offset of the window (20_memory.md R53): reserved offsets ignore it. -/
def State.hostWrite (s : State) (off : Nat) (v : Word) : State :=
  match regAt off with
  | some r => s.writeReg r v
  | none => s

end Sys2Proof.Machine
end

