-- ==== Sys2Proof/Machine/Bus.lean ====
section
/-! DEFINITION. What one event of the schedule does to the machine: the completion of the running command (spec 43_commands.md
R161, R162), the host's accesses (20_memory.md R50 to R53), the platform's stores, fence and map (20_memory.md R63, R66), reset
(70_reset_and_hazards.md R230, R231). -/

namespace Sys2Proof.Machine

/-- `perform` (43_commands.md R162): the running command is decoded and its meaning applied; a word the decoder rejects is
rejected with its code. -/
def State.perform (s : State) (l : Latched) : Result :=
  match decode l.cw with
  | .error e => reject (codeOfDecodeError e) s
  | .ok i => exec i s

/-- Time passes (70_reset_and_hazards.md R240): a running command completes; an idle core holds all its state (60_exceptions.md
R214). -/
def State.advance (s : State) : Result :=
  match s.running with
  | some l => s.perform l
  | none => .next s

/-- `REG_BASE` (00_scope.md R5): 256-byte aligned. -/
def regBase (c : Config) : Nat := 256 * c.regPage

/-- The offset of a bus address in the register window; `none` outside it (20_memory.md R50). DESIGN CHOICE (log entry 9): an
access is judged by the address of its first byte, whatever its size, so one that begins below `REG_BASE` and runs into the
window is outside it, and one that begins in the window and runs out past its top is in it (and refused, R52). -/
def windowOffset (c : Config) (addr : Nat) : Option Nat :=
  if regBase c ≤ addr ∧ addr < regBase c + 256 then some (addr - regBase c) else none

/-- A register access is defined "only when it is a 64-bit access at an offset that is a multiple of 8" (20_memory.md R52). -/
def wholeAccess (off size : Nat) : Bool := size == 8 && off % 8 == 0

/-- A host read on the bus (20_memory.md R50, R52, R53; 43_commands.md R177). -/
def State.busRead (s : State) (addr size : Nat) : Result :=
  match windowOffset s.cfg addr with
  | none => .fault .outsideWindow
  | some off => if wholeAccess off size then .next (s.hostRead off) else .refused .narrowAccess

/-- A host write on the bus (20_memory.md R50, R52, R53; 43_commands.md R178). -/
def State.busWrite (s : State) (addr size : Nat) (v : Word) : Result :=
  match windowOffset s.cfg addr with
  | none => .fault .outsideWindow
  | some off => if wholeAccess off size then .next (s.hostWrite off v) else .refused .narrowAccess

/-- An agent's byte store into the input buffer space (20_memory.md R56, R66): staged until the platform's fence; into the
buffer of a running command, it breaks the second duty for that byte. -/
def State.agentStore (s : State) (addr : Nat) (v : Byte) : Result :=
  if addr < 2 ^ addrWidth s.cfg then
    .next { s with
      staged := s.staged ++ [(addr, v)]
      running := s.running.map (fun l => l.mark (s.pending [(addr, v)]) []) }
  else .fault .outsideBuffer

/-- The platform's fence (20_memory.md R66, first duty): every staged store becomes visible, oldest first. -/
def State.fenceStores (s : State) : State :=
  { s with mem := s.staged.foldl (fun m c => Memory.store m c.1 c.2) s.mem, staged := [] }

/-- The platform puts another map behind the read port (20_memory.md R63, R66): reads with side effects, even for a part of the
time a command runs, break the third duty for the bytes there. -/
def State.setRegions (s : State) (rs : List Region) : State :=
  { s with
    regions := rs
    running := s.running.map (fun l => l.mark [] rs) }

/-- The reset input is asserted (70_reset_and_hazards.md R230, R231): every element of the core takes its reset value, a running
command is abandoned. The build, the buffer space and what the model adds are not the core's elements and stay (log entry 12).
DESIGN CHOICE (log entry 14): assertion and release are one event, so the next event already meets the released core. -/
def State.assertReset (s : State) : State :=
  { State.reset with
    cfg := s.cfg, mem := s.mem, staged := s.staged, regions := s.regions,
    events := s.events, program := s.program, rdata := s.rdata, draws := s.draws }

/-- One turn of the host program (30_encoding.md R89): its next access, or, at a `wait`, one read of `STATUS`, after which the
program goes on exactly when the word read has `BUSY = 0`, which is when no command runs (10_state.md R35; while one runs, `STATUS`
"reads with `BUSY = 1`", 70_reset_and_hazards.md R241). A program that is over does nothing. -/
def State.hostTurn (s : State) : State :=
  match s.program with
  | [] => s
  | .write r v :: p => State.writeReg { s with program := p } r v
  | .read r :: p => State.readReg { s with program := p } r
  | .wait :: p =>
    let t := s.readReg .status
    if s.busy then t else { t with program := p }

/-- What one event of the schedule does. -/
def State.handle (s : State) (e : Event) : Result :=
  match e with
  | .elapse => s.advance
  | .host => .next s.hostTurn
  | .read addr size => s.busRead addr size
  | .write addr size v => s.busWrite addr size v
  | .store addr v => s.agentStore addr v
  | .fence => .next s.fenceStores
  | .remap rs => .next (s.setRegions rs)
  | .reset => .next s.assertReset

/-- `s` with the command `cw` issued (43_commands.md R160) and its latency about to elapse before anything else happens: what a
host's write of `cw` to `CTRL` in `s` leaves, seen just before its completion. -/
def State.withCommand (s : State) (cw : Word) : State :=
  { s with running := some (s.latch cw), events := .elapse :: s.events }

end Sys2Proof.Machine
end

