-- ==== Sys2Proof/Machine/Step.lean ====
section
/-! DEFINITION. One step of the machine: the next event of the schedule (spec 20_memory.md R64: accesses take effect in order);
with no event left, time passes and a running command completes (70_reset_and_hazards.md R245). The core fetches no
instructions (10_state.md R37, 20_memory.md R68): a command "runs" when its issued word completes. -/

namespace Sys2Proof.Machine

/-- One step. -/
def step (s : State) : Host.Outcome State Fault Refusal :=
  match s.events with
  | [] => s.advance
  | e :: rest => State.handle { s with events := rest } e

/-- `s` with the command word `w` issued, so that the very next step performs exactly it (log entry 3). Any bit above `nbits` is
0. -/
def State.withFetchWord (s : State) (nbits w : Nat) : State := s.withCommand (tableWord nbits w)

end Sys2Proof.Machine
end

