-- ==== Sys2Proof/Machine/HostProgram.lean ====
section
/-! DEFINITION. The host program syntax and its pseudo-instructions (spec 30_encoding.md R89, R90), as lists of
register accesses. `State.program` holds them and the host takes them turn by turn (`State.hostTurn`); the core knows nothing of
it. Where a command completes among the later statements, when no `wait` follows it, is open (93_implementation_defined.md I9, I21)
and is the schedule's to say, not the program's (log entries 2, 13). -/

namespace Sys2Proof.Machine

/-- A statement of a host program (30_encoding.md R89), or a pseudo-instruction (R90). -/
inductive Stmt where
  /-- `write REG, v`. -/
  | write (r : Reg) (v : Word)
  /-- `read REG -> x`. -/
  | read (r : Reg)
  /-- `wait`. -/
  | wait
  /-- `nop`. -/
  | nop
  /-- `init wNNN`. -/
  | init (w : Width)
  /-- `absorb n`, `n` in 0..31. -/
  | absorb (n : BitVec 5)
  /-- `final`. -/
  | final
  /-- `oneshot wNNN`. -/
  | oneshot (w : Width)
  /-- `clear`. -/
  | clear
  /-- `.word v`. -/
  | word (v : Word)
  /-- `open s, L, wNNN`. -/
  | openSession (s L : Word) (w : Width)
  /-- `feed b0 b1 …`, at most 16 bytes. -/
  | feed (bytes : List Byte)
  /-- `close`. -/
  | close
  /-- `hashbuf A, L, s, wNNN`. -/
  | hashbuf (A L s : Word) (w : Width)
  /-- `digest -> d0 d1 d2 d3`. -/
  | digest
  /-- `check -> st`. -/
  | check
deriving DecidableEq, Repr

/-- `v0 = sum over k<min(n,8) of b_k << 8k` (30_encoding.md R90). -/
def feedLow (bytes : List Byte) : Word := packBytes (fun k => bytes.getD k 0) (min bytes.length 8)

/-- `v1 = sum over 8≤k<n of b_k << 8(k-8)` (30_encoding.md R90). -/
def feedHigh (bytes : List Byte) : Word := packBytes (fun k => bytes.getD (8 + k) 0) (bytes.length - 8)

/-- The expansion of a pseudo-instruction (30_encoding.md R90); any other statement stands for itself. -/
def Stmt.expand : Stmt → List Stmt
  | .openSession s L w => [.write .seed s, .write .length L, .init w, .wait]
  | .feed bytes =>
    [.write .din0 (feedLow bytes), .write .din1 (feedHigh bytes), .absorb (BitVec.ofNat 5 bytes.length), .wait]
  | .close => [.final, .wait]
  | .hashbuf A L s w =>
    [.write .seed s, .write .length L, .write .srcAddr A, .oneshot w, .wait]
  | .digest => [.read .dout0, .read .dout1, .read .dout2, .read .dout3]
  | .check => [.read .status]
  | .write r v => [.write r v]
  | .read r => [.read r]
  | .wait => [.wait]
  | .nop => [.nop]
  | .init w => [.init w]
  | .absorb n => [.absorb n]
  | .final => [.final]
  | .oneshot w => [.oneshot w]
  | .clear => [.clear]
  | .word v => [.word v]

/-- A whole 64-bit write of a register, as a bus event. -/
def writeEvent (c : Config) (r : Reg) (v : Word) : Event := .write (regBase c + r.offset) 8 v

/-- A whole 64-bit read of a register, as a bus event. -/
def readEvent (c : Config) (r : Reg) : Event := .read (regBase c + r.offset) 8

/-- The accesses of one statement (30_encoding.md R89). A pseudo-instruction has none of its own. -/
def Stmt.accesses : Stmt → List Access
  | .write r v => [.write r v]
  | .read r => [.read r]
  | .wait => [.wait]
  | .nop => [.write .ctrl (encode .nop)]
  | .init w => [.write .ctrl (encode (.init w.code))]
  | .absorb n => [.write .ctrl (encode (.absorb n))]
  | .final => [.write .ctrl (encode .final)]
  | .oneshot w => [.write .ctrl (encode (.oneshot w.code))]
  | .clear => [.write .ctrl (encode .clear)]
  | .word v => [.write .ctrl v]
  | .openSession .. | .feed .. | .close | .hashbuf .. | .digest | .check => []

/-- The accesses of a host program, in program order: every pseudo-instruction expanded (30_encoding.md R90). -/
def programAccesses (p : List Stmt) : List Access := (p.flatMap Stmt.expand).flatMap Stmt.accesses

/-- `s` with the host program `p` to run, its turns on the bus where the schedule has `host`. -/
def State.withProgram (s : State) (p : List Stmt) : State := { s with program := programAccesses p }

end Sys2Proof.Machine
end

