-- ==== Sys2Proof/Safety.lean ====
section
/-! DEFINITION. The terms claims are stated in: the invariant of the machine, the checks of a command as the spec lists them
(60_exceptions.md R203), the hash function `Rainbow` as a function of bytes (00_scope.md R14), and a streaming session as a
sequence of commands (43_commands.md R170). The machine calls none of this. -/

namespace Sys2Proof.Machine

/-! ### The invariant -/

/-- Every listed address exists in the input buffer space (20_memory.md R56). -/
def addressesExist (c : Config) (cells : List Host.Cell) : Prop := ∀ x ∈ cells, x.1 < 2 ^ addrWidth c

/-- What CLEAR and reset leave of the core, and what `IDLE` means (10_state.md R28; 43_commands.md R176): no session. -/
def State.blank (s : State) : Prop :=
  s.h = Quad.zero ∧ s.sseed = 0 ∧ s.inner = false ∧ s.lbuf = Vector.replicate 16 0 ∧ s.lfill = 0 ∧ s.count = 0 ∧
    s.width = .w64 ∧ s.dout = Quad.zero

/-- What every step keeps:
the buffer space is in its canonical form and holds only addresses that exist;
`LFILL` is `COUNT mod 16` and `INNER` is the parity of the lanes absorbed, `floor(COUNT / 16) mod 2` (R122, R125, R173);
in `IDLE` the core is blank; in `OPEN` no digest stands in `DOUT` (10_state.md R29). -/
structure State.Inv (s : State) : Prop where
  memCanonical : Memory.wf s.mem
  memExists : addressesExist s.cfg s.mem
  stagedExists : addressesExist s.cfg s.staged
  lfillOfCount : s.lfill.val = s.count.toNat % 16
  innerOfCount : s.inner = decide (s.count.toNat / 16 % 2 = 1)
  idleBlank : s.phase = .idle → s.blank
  openNoDigest : s.phase = .opened → s.dout = Quad.zero

/-! ### The checks of one command, as the spec lists them -/

/-- `check(cw, s, L, A)` (60_exceptions.md R203), line by line, on the raw fields of the command word. -/
def checkCode (s : State) (l : Latched) : ResultCode :=
  let op := (opField l.cw).toNat
  let w := wField l.cw
  let n := nField l.cw
  if 6 ≤ op ∨ reservedLow l.cw ≠ 0#2 ∨ reservedHigh l.cw ≠ 0#51 then .badOp
  else if (op = 0 ∨ op = 3 ∨ op = 5) ∧ (w ≠ 0#2 ∨ n ≠ 0#5) then .badOp
  else if (op = 1 ∨ op = 4) ∧ n ≠ 0#5 then .badOp
  else if op = 2 ∧ w ≠ 0#2 then .badOp
  else if (op = 1 ∨ op = 4) ∧ w = 3#2 then .badWidth
  else if op = 2 ∧ 16 < n.toNat then .badCount
  else if (op = 2 ∨ op = 3) ∧ s.phase = .idle then .noSession
  else if op = 2 ∧ s.phase = .done then .closed
  else if op = 4 ∧ (2 ^ addrWidth s.cfg ≤ l.srcAddr.toNat ∨ 2 ^ addrWidth s.cfg < l.srcAddr.toNat + l.length.toNat) then .range
  else .ok

/-! ### The hash function of bytes (00_scope.md R14) -/

/-- The first `m` lanes of a byte string, lane `k` mixed with mixA when `k` is even and with mixB when `k` is odd (41_absorption.md
R121, R122). -/
def laneRun (c : Config) (seed : Word) (b : Nat → Byte) : Nat → Quad → Quad
  | 0, h => h
  | k + 1, h => laneState c seed (decide (k % 2 = 1)) (fun j => b (16 * k + j)) (laneRun c seed b k h)

/-- The closed state of the `n` bytes `b` with seed `seed` and declared length `L` (00_scope.md R14; 43_commands.md R170). -/
def closedState (c : Config) (seed L : Word) (b : Nat → Byte) (n : Nat) : Quad :=
  closeState c seed (fun j => b (16 * (n / 16) + j)) (n % 16) (laneRun c seed b (n / 16) (initState seed L))

/-- The digest registers for the `n` bytes `b`, the seed, the declared length and the width. -/
def digestWords (c : Config) (seed L : Word) (b : Nat → Byte) (n : Nat) (w : Width) : Quad :=
  (extract c seed w (closedState c seed L b n) Quad.zero).2

/-- `Rainbow(B, s, w)` (00_scope.md R14): the declared length is the number of bytes. -/
def rainbow (c : Config) (bytes : List Byte) (seed : Word) (w : Width) : Quad :=
  digestWords c seed (BitVec.ofNat 64 bytes.length) (fun k => bytes.getD k 0) bytes.length w

/-- The tail cascade in ascending order, from byte 0 up to byte `r - 1` (90_conflicts.md C4: the order the spec does not take). -/
def tailAscending (t : TailOps) (b : Nat → Byte) : Nat → Quad → Quad
  | 0, h => h
  | i + 1, h => tailByte t i (b i) (tailAscending t b i h)

/-- The reference value of `TAIL_OP`: `ADD` for all entries (42_finalization.md R140). -/
def allAdd : TailOps := ⟨.add, .add, .add, .add, .add, .add, .add, .add, .add, .add, .add, .add, .add⟩

/-! ### Sequences of commands -/

/-- A command, then what follows it where it answers a next state. -/
def andThen (r : Result) (k : State → Result) : Result :=
  match r with
  | .next t => k t
  | .fault f => .fault f
  | .refused f => .refused f

/-- The same command `n` times. -/
def execTimes (i : Instr) : Nat → State → Result
  | 0, s => .next s
  | n + 1, s => andThen (exec i s) (execTimes i n)

/-- One beat of `update(session, chunk)` (30_encoding.md R90, `feed`): the bytes put in `DIN0` and `DIN1`, then ABSORB. -/
def absorbChunk (chunk : List Byte) (s : State) : Result :=
  exec (.absorb (BitVec.ofNat 5 chunk.length)) { s with din0 := feedLow chunk, din1 := feedHigh chunk }

/-- A series of beats. -/
def absorbChunks : List (List Byte) → State → Result
  | [], s => .next s
  | c :: cs, s => andThen (absorbChunk c s) (absorbChunks cs)

/-- A streaming session (43_commands.md R170): INIT, ABSORBs, FINAL. -/
def session (w : Width) (chunks : List (List Byte)) (s : State) : Result :=
  andThen (exec (.init w.code) s) (fun s => andThen (absorbChunks chunks s) (exec .final))

/-! ### Writes to `CTRL` -/

/-- The next event is a whole write of `cw` to `CTRL`: by a bus master, or by a turn of the host program (20_memory.md R51;
30_encoding.md R89). -/
def State.writesCtrl (s : State) (cw : Word) : Prop :=
  (∃ rest, s.events = writeEvent s.cfg .ctrl cw :: rest) ∨
    ∃ rest p, s.events = .host :: rest ∧ s.program = .write .ctrl cw :: p

/-! ### The host's duties on a buffer (20_memory.md R66) -/

/-- Byte `a` lies in a region of the platform's map where reads have side effects. -/
def sideEffectAt (rs : List Region) (a : Nat) : Prop :=
  ∃ r ∈ rs, r.kind = .sideEffect ∧ r.base ≤ a ∧ a < r.base + r.size

/-! ### The host operand registers -/

/-- Other values in the host operand registers (10_state.md R30 to R33). -/
def State.withOperands (s : State) (seed length srcAddr din0 din1 : Word) : State :=
  { s with seed := seed, length := length, srcAddr := srcAddr, din0 := din0, din1 := din1 }

end Sys2Proof.Machine
end

