-- ==== Sys2Proof/Certificates/Slice0/Obligations.lean ====
section
/-! DEFINITION. The statements for the provers, one for each rule or group of rules of the spec that says what a command or the
machine does. OBLIGATIONS.json lists them. A statement whose docstring names a log entry rests on a choice of the model there. -/

open Sys2Proof Sys2Proof.Machine

/-! ### The command word (30_encoding.md) -/

/-- R81, R82, R87, R88: decoding the word of a command gives the command back, with every operand value the encoding admits; and a
word that is accepted is the word of exactly one command, which is well formed. -/
def Obligations.DecodeAndEncodeAgree : Prop :=
  (∀ i : Instr, i.wf = true → decode (encode i) = .ok i) ∧
  (∀ (cw : Word) (i : Instr), decode cw = .ok i → i.wf = true ∧ encode i = cw)

/-- R88: each command is recognised by `(word and mask) = match`; the three ways a word is rejected. -/
def Obligations.DecodeRecognisesMatchAndMask : Prop :=
  ∀ cw : Word,
    (decode cw = .ok .nop ↔ cw &&& 0xFFFFFFFFFFFFFFFF = 0x0) ∧
    (∀ w, decode cw = .ok (.init w) ↔ cw &&& 0xFFFFFFFFFFFFFFCF = 0x1 ∧ cw.extractLsb' 4 2 = w ∧ w ≠ 3) ∧
    (∀ n, decode cw = .ok (.absorb n) ↔ cw &&& 0xFFFFFFFFFFFFE0FF = 0x2 ∧ cw.extractLsb' 8 5 = n ∧ n.toNat ≤ 16) ∧
    (decode cw = .ok .final ↔ cw &&& 0xFFFFFFFFFFFFFFFF = 0x3) ∧
    (∀ w, decode cw = .ok (.oneshot w) ↔ cw &&& 0xFFFFFFFFFFFFFFCF = 0x4 ∧ cw.extractLsb' 4 2 = w ∧ w ≠ 3) ∧
    (decode cw = .ok .clear ↔ cw &&& 0xFFFFFFFFFFFFFFFF = 0x5) ∧
    (decode cw = .error .badWidth ↔
      (cw &&& 0xFFFFFFFFFFFFFFCF = 0x1 ∨ cw &&& 0xFFFFFFFFFFFFFFCF = 0x4) ∧ cw.extractLsb' 4 2 = 3) ∧
    (decode cw = .error .badCount ↔ cw &&& 0xFFFFFFFFFFFFE0FF = 0x2 ∧ 16 < (cw.extractLsb' 8 5).toNat) ∧
    (decode cw = .error .badOp ↔
      cw ≠ 0x0 ∧ cw &&& 0xFFFFFFFFFFFFFFCF ≠ 0x1 ∧ cw &&& 0xFFFFFFFFFFFFE0FF ≠ 0x2 ∧ cw ≠ 0x3 ∧
        cw &&& 0xFFFFFFFFFFFFFFCF ≠ 0x4 ∧ cw ≠ 0x5)

/-- The example encodings of R88, as 64-bit words, and one word of each way to be rejected (95_test_vectors.md section 9.1). -/
def Obligations.ExampleWordsDecode : Prop :=
  decode 0x01 = .ok (.init 0) ∧ decode 0x11 = .ok (.init 1) ∧ decode 0x21 = .ok (.init 2) ∧
    decode 0x002 = .ok (.absorb 0) ∧ decode 0x102 = .ok (.absorb 1) ∧ decode 0x502 = .ok (.absorb 5) ∧
    decode 0x1002 = .ok (.absorb 16) ∧ decode 0x03 = .ok .final ∧ decode 0x24 = .ok (.oneshot 2) ∧
    decode 0x05 = .ok .clear ∧ decode 0x00 = .ok .nop ∧
    decode 0x131 = .error .badOp ∧ decode 0x31 = .error .badWidth ∧ decode 0x1102 = .error .badCount

/-- R85, R86: a reserved `OP`, a reserved bit that is 1, or an unused field that is not 0 is rejected with BADOP, whatever the
other bits and the state are. -/
def Obligations.ReservedWordsAreRejectedBadOp : Prop :=
  ∀ (s : State) (l : Latched),
    (6 ≤ (opField l.cw).toNat ∨ reservedLow l.cw ≠ 0 ∨ reservedHigh l.cw ≠ 0 ∨
      ((opField l.cw = 0 ∨ opField l.cw = 2 ∨ opField l.cw = 3 ∨ opField l.cw = 5) ∧ wField l.cw ≠ 0) ∨
      ((opField l.cw = 0 ∨ opField l.cw = 1 ∨ opField l.cw = 3 ∨ opField l.cw = 4 ∨ opField l.cw = 5) ∧ nField l.cw ≠ 0)) →
    s.perform l = .next { s with err := .badOp, running := none }

/-- R83, R84: the width codes 0, 1, 2; INIT and ONESHOT with `W = 3` are rejected with BADWIDTH; ABSORB with `N` of 17 to 31 is
rejected with BADCOUNT: in each case nothing but `ERR` changes and `BUSY` falls. -/
def Obligations.UnsupportedWidthAndCountAreRejected : Prop :=
  (widthOf 0 = some .w64 ∧ widthOf 1 = some .w128 ∧ widthOf 2 = some .w256 ∧ widthOf 3 = none) ∧
  (∀ s : State, exec (.init 3) s = .next { s with err := .badWidth, running := none }) ∧
  (∀ s : State, exec (.oneshot 3) s = .next { s with err := .badWidth, running := none }) ∧
  (∀ (s : State) (n : BitVec 5), 16 < n.toNat → exec (.absorb n) s = .next { s with err := .badCount, running := none })

/-! ### Checks and rejection (43_commands.md, 60_exceptions.md) -/

/-- R164: a command that completes with a code other than OK has written only `ERR` (and `BUSY <- 0`, R161). -/
def Obligations.RejectedCommandWritesOnlyErr : Prop :=
  ∀ (s t : State) (l : Latched), s.perform l = .next t → t.running = none → t.err ≠ .ok →
    t = { s with err := t.err, running := none }

/-- R203 (and R162, R164): the checks of one command run in the order of the spec's list, and the first that fails gives the code
(`checkCode` is that list, on the raw fields of the word). A command that fails a check changes nothing but `ERR`; one that
passes them all completes with `OK`, or, where a read is never answered, does not complete (R204, R63). (Which reads are answered is judged
by the map at completion: the model's choice, log entry 8.) -/
def Obligations.ChecksRunInTheListedOrder : Prop :=
  ∀ (s : State) (l : Latched), s.running = some l →
    ∃ t, s.perform l = .next t ∧
      (checkCode s l ≠ .ok → t = { s with err := checkCode s l, running := none }) ∧
      (checkCode s l = .ok →
        (t.err = .ok ∧ t.running = none) ∨ (s.unanswered l.srcAddr.toNat l.length.toNat = true ∧ t = s))

/-- R201, as an upper bound: which codes each command can report. -/
def Obligations.EachCommandReportsOnlyItsCodes : Prop :=
  ∀ (s t : State) (i : Instr), exec i s = .next t → t.running = none →
    match i with
    | .nop => t.err = .ok
    | .init _ => t.err = .ok ∨ t.err = .badWidth
    | .absorb _ => t.err = .ok ∨ t.err = .badCount ∨ t.err = .noSession ∨ t.err = .closed
    | .final => t.err = .ok ∨ t.err = .noSession
    | .oneshot _ => t.err = .ok ∨ t.err = .badWidth ∨ t.err = .range
    | .clear => t.err = .ok

/-- R204, R206: no command ends a run: whatever the command and the state, it answers a next state. -/
def Obligations.EveryCommandAnswersANextState : Prop :=
  ∀ (s : State) (l : Latched), ∃ t, s.perform l = .next t

/-- ABSORB and FINAL in `IDLE`, ABSORB in `DONE` (R168, R171, R200): rejected, nothing but `ERR` changes. -/
def Obligations.SessionCommandsNeedTheirPhase : Prop :=
  (∀ (s : State) (n : BitVec 5), n.toNat ≤ 16 → s.phase = .idle →
    exec (.absorb n) s = .next { s with err := .noSession, running := none }) ∧
  (∀ (s : State) (n : BitVec 5), n.toNat ≤ 16 → s.phase = .done →
    exec (.absorb n) s = .next { s with err := .closed, running := none }) ∧
  (∀ s : State, s.phase = .idle → exec .final s = .next { s with err := .noSession, running := none })

/-- R174: ONESHOT is rejected with RANGE exactly when `A >= 2^AW` or `A + L > 2^AW`, the sum without wraparound, before any
state changes. -/
def Obligations.OneshotOutOfRangeIsRejected : Prop :=
  ∀ (s : State) (wd : Width),
    let l := s.latched (encode (.oneshot wd.code))
    (2 ^ addrWidth s.cfg ≤ l.srcAddr.toNat ∨ 2 ^ addrWidth s.cfg < l.srcAddr.toNat + l.length.toNat →
      exec (.oneshot wd.code) s = .next { s with err := .range, running := none }) ∧
    (∀ t, exec (.oneshot wd.code) s = .next t → t.running = none → t.err = .range →
      2 ^ addrWidth s.cfg ≤ l.srcAddr.toNat ∨ 2 ^ addrWidth s.cfg < l.srcAddr.toNat + l.length.toNat)

/-! ### The results of the commands (43_commands.md) -/

/-- R165: NOP completes in every state; `ERR <- OK` and nothing else changes, no byte of the buffer space either. -/
def Obligations.NopSetsErrOkOnly : Prop :=
  ∀ s : State, exec .nop s = .next { s with err := .ok, running := none } ∧
    ∀ t, exec .nop s = .next t → ∀ a, t.portByte a = s.portByte a

/-- R166, R120: INIT completes in every state with `W` 0, 1 or 2, and leaves exactly this state; everything not named here is
unchanged. -/
def Obligations.InitOpensASession : Prop :=
  ∀ (s : State) (wd : Width),
    let l := s.latched (encode (.init wd.code))
    exec (.init wd.code) s = .next { s with
      sseed := l.seed, width := wd,
      h := ⟨l.seed + l.length + 1, l.seed + l.length + 3, l.seed + l.length + 5, l.seed + l.length + 7⟩,
      inner := false, lbuf := Vector.replicate 16 0, lfill := 0, count := 0, dout := ⟨0, 0, 0, 0⟩,
      phase := .opened, err := .ok, running := none }

/-- R124 and the status fields of R168: ABSORB of up to 16 bytes in `OPEN` completes. It completes a lane exactly when
`LFILL + N >= 16`; then `LFILL <- LFILL + N - 16` and `INNER` flips; otherwise `LFILL <- LFILL + N`. `COUNT` grows by `N`. Frame:
everything but `H`, `INNER`, `LBUF`, `LFILL`, `COUNT`, `ERR` and `BUSY` is unchanged, no byte of the buffer space either. -/
def Obligations.AbsorbCountsAndFills : Prop :=
  ∀ (s : State) (n : BitVec 5), s.phase = .opened → n.toNat ≤ 16 →
    ∃ t, exec (.absorb n) s = .next t ∧
      (if 16 ≤ s.lfill.val + n.toNat then t.lfill.val = s.lfill.val + n.toNat - 16 ∧ t.inner = !s.inner
       else t.lfill.val = s.lfill.val + n.toNat ∧ t.inner = s.inner) ∧
      t.count = s.count + BitVec.ofNat 64 n.toNat ∧ t.err = .ok ∧ t.running = none ∧
      t = { s with
        h := t.h, inner := t.inner, lbuf := t.lbuf, lfill := t.lfill, count := t.count, err := t.err, running := t.running } ∧
      ∀ a, t.portByte a = s.portByte a

/-- R123, R121, R169: where the bytes of an ABSORB go. With no full lane, `H` is unchanged and the data bytes follow those in
`LBUF`. With a full lane, the lane is the bytes of `LBUF` and the first data bytes, and the rest of the data starts `LBUF` anew.
First, what a lane does to `H` (R121): the word `g` of its first 8 bytes is subtracted from `H[0]` and added to `H[1]`, the word
`g'` of the next 8 added to `H[2]` and subtracted from `H[3]`, both under `ENDIAN`; then mixB when `INNER` is 1, else mixA. -/
def Obligations.AbsorbMovesTheDataBytes : Prop :=
  (∀ (c : Config) (sseed : Word) (b : Nat → Byte) (h : Quad),
    let g := rd64 c.endian b
    let g' := rd64 c.endian (fun k => b (8 + k))
    let x : Quad := ⟨h.w0 - g, h.w1 + g, h.w2 + g', h.w3 - g'⟩
    laneState c sseed true b h = mixB c sseed x ∧ laneState c sseed false b h = mixA c x) ∧
  ∀ (s : State) (n : BitVec 5), s.phase = .opened → n.toNat ≤ 16 →
    let l := s.latched (encode (.absorb n))
    let d := dataByte l.din0 l.din1
    let f := s.lfill.val
    ∃ t, exec (.absorb n) s = .next t ∧
      (if 16 ≤ f + n.toNat then
        t.h = laneState s.cfg s.sseed s.inner (fun k => if k < f then s.lbufByte k else d (k - f)) s.h ∧
        ∀ k < f + n.toNat - 16, t.lbufByte k = d (16 - f + k)
       else
        t.h = s.h ∧ ∀ k < f + n.toNat, t.lbufByte k = if k < f then s.lbufByte k else d (k - f))

/-- R168, second corner case: the bytes of `DIN0` and `DIN1` at index `N` and above are ignored. For a running command these are
the latched ones: whatever the bytes from `N` on, it completes with the same state. Second clause: with nothing running, `exec`
reads `DIN0` and `DIN1` as its issue would latch them (the model's choice, log entry 10), and the two next states differ in these
registers only. -/
def Obligations.AbsorbIgnoresBytesFromNOn : Prop :=
  (∀ (s : State) (l : Latched) (n : BitVec 5) (d0 d1 : Word), s.running = some l →
    (∀ k < n.toNat, dataByte d0 d1 k = dataByte l.din0 l.din1 k) →
    ∃ t, exec (.absorb n) s = .next t ∧
      exec (.absorb n) { s with running := some { l with din0 := d0, din1 := d1 } } = .next t) ∧
  ∀ (s : State) (n : BitVec 5) (d0 d1 : Word), s.running = none →
    (∀ k < n.toNat, dataByte d0 d1 k = dataByte s.din0 s.din1 k) →
    ∃ t, exec (.absorb n) s = .next t ∧
      exec (.absorb n) { s with din0 := d0, din1 := d1 } = .next { t with din0 := d0, din1 := d1 }

/-- R171 with R143, R144: FINAL in `OPEN` completes: close with `LBUF[0..LFILL-1]` (mixB, the tail bytes, mixA, mixB, mixA), then
extraction at `WIDTH`; `PHASE <- DONE`, `ERR <- OK`. FINAL in `DONE` completes and changes only `ERR` (first line of the
pseudocode). Everything else is unchanged. -/
def Obligations.FinalClosesTheSession : Prop :=
  (∀ s : State, s.phase = .opened →
    let c := s.cfg
    let hc := mixA c (mixB c s.sseed (mixA c (tailAbsorb c.tail s.lbufByte s.lfill.val (mixB c s.sseed s.h))))
    let x := extract c s.sseed s.width hc s.dout
    exec .final s = .next { s with h := x.1, dout := x.2, phase := .done, err := .ok, running := none }) ∧
  (∀ s : State, s.phase = .done → exec .final s = .next { s with err := .ok, running := none })

/-- R172: after an accepted FINAL, any number of further FINALs leaves the state as it is. -/
def Obligations.RepeatedFinalChangesNothing : Prop :=
  ∀ (n : Nat) (s t : State), exec .final s = .next t → t.err = .ok → execTimes .final n t = .next t

/-- R173: an ONESHOT in range, with every read answered and the host's duties kept, completes, and leaves this: the lanes of the
buffer (mixA for even ones, mixB for odd ones) from the initial state, closed with the tail, extracted at `W`; the status fields
and `LBUF` as the rule lists them. Frame: everything else is unchanged, no byte of the buffer space is written. (Which reads are
answered is judged by the map at completion: the model's choice, log entry 8.) -/
def Obligations.OneshotHashesTheBuffer : Prop :=
  ∀ (s : State) (wd : Width),
    let l := s.latched (encode (.oneshot wd.code))
    let A := l.srcAddr.toNat
    let L := l.length.toNat
    A < 2 ^ addrWidth s.cfg → A + L ≤ 2 ^ addrWidth s.cfg → s.unanswered A L = false → l.broken = false →
    let x := extract s.cfg l.seed wd (closedState s.cfg l.seed l.length (s.memRead A) L) ⟨0, 0, 0, 0⟩
    ∃ t, exec (.oneshot wd.code) s = .next t ∧
      t.h = x.1 ∧ t.dout = x.2 ∧ t.sseed = l.seed ∧ t.width = wd ∧ t.count = l.length ∧ t.phase = .done ∧
      t.err = .ok ∧ t.running = none ∧ t.lfill.val = L % 16 ∧ t.inner = decide (L / 16 % 2 = 1) ∧
      (∀ k < 16, t.lbufByte k = if k < L % 16 then s.portByte (A + 16 * (L / 16) + k) else 0) ∧
      t = { s with
        h := t.h, dout := t.dout, sseed := t.sseed, width := t.width, count := t.count, phase := t.phase, err := t.err,
        running := t.running, lfill := t.lfill, inner := t.inner, lbuf := t.lbuf } ∧
      ∀ a, t.portByte a = s.portByte a

/-- R66, R244 with 93_implementation_defined.md I5, and R173: an ONESHOT for which a host duty on the buffer is broken still completes;
the status fields are as R173 gives, while `H` and `DOUT` are free values. `LBUF` keeps the tail: a byte for which no duty is broken is
the byte at its place in the buffer, an affected one is one of the values it held during the command (any byte where reads have side
effects). Everything else is unchanged. (How a broken duty is marked, and that a read with side effects leaves the bytes of its
region as they were, are the model's: log entry 7. So is that the map at completion says which reads are answered: log entry 8.) -/
def Obligations.OneshotWithABrokenDutyKeepsItsStatus : Prop :=
  ∀ (s : State) (wd : Width),
    let l := s.latched (encode (.oneshot wd.code))
    let A := l.srcAddr.toNat
    let L := l.length.toNat
    A < 2 ^ addrWidth s.cfg → A + L ≤ 2 ^ addrWidth s.cfg → s.unanswered A L = false → l.broken = true →
    ∃ t, exec (.oneshot wd.code) s = .next t ∧
      t.err = .ok ∧ t.phase = .done ∧ t.width = wd ∧ t.lfill.val = L % 16 ∧ t.inner = decide (L / 16 % 2 = 1) ∧
      t.count = l.length ∧ t.sseed = l.seed ∧ t.running = none ∧
      (∀ k < L % 16,
        let a := A + 16 * (L / 16) + k
        (l.affected a = false → t.lbufByte k = s.portByte a) ∧
        (l.affected a = true → l.unstableAt a = false → t.lbufByte k ∈ l.heldAt a)) ∧
      (∀ k, L % 16 ≤ k → k < 16 → t.lbufByte k = 0) ∧
      t = { s with
        h := t.h, dout := t.dout, sseed := t.sseed, width := t.width, count := t.count, phase := t.phase, err := t.err,
        running := t.running, lfill := t.lfill, inner := t.inner, lbuf := t.lbuf, draws := t.draws } ∧
      ∀ a, t.portByte a = s.portByte a

/-- R63, R245: an ONESHOT with a read that is never answered stays `BUSY` for ever, however much time passes, and changes
nothing. (That the platform's map when the latency elapses decides it, also one that turned silent while the command ran, is the
model's choice, log entry 8.) -/
def Obligations.UnansweredReadKeepsTheCoreBusy : Prop :=
  ∀ (s : State) (l : Latched) (wd : Width), s.running = some l → decode l.cw = .ok (.oneshot wd.code) →
    l.srcAddr.toNat < 2 ^ addrWidth s.cfg → l.srcAddr.toNat + l.length.toNat ≤ 2 ^ addrWidth s.cfg →
    s.unanswered l.srcAddr.toNat l.length.toNat = true → s.events = [] →
    ∀ n, Sys2Proof.core.run n s = .next s

/-- R175: two accepted ONESHOTs with the same width, seed, length and bytes leave the same `DOUT`, whatever the states before
and whatever the two addresses are. -/
def Obligations.OneshotIsDeterministic : Prop :=
  ∀ (s s' t t' : State) (wd : Width), s.cfg = s'.cfg →
    let l := s.latched (encode (.oneshot wd.code))
    let l' := s'.latched (encode (.oneshot wd.code))
    l.seed = l'.seed → l.length = l'.length → l.broken = false → l'.broken = false →
    (∀ k < l.length.toNat, s.portByte (l.srcAddr.toNat + k) = s'.portByte (l'.srcAddr.toNat + k)) →
    exec (.oneshot wd.code) s = .next t → exec (.oneshot wd.code) s' = .next t' →
    t.running = none → t'.running = none → t.err = .ok → t'.err = .ok → t.dout = t'.dout

/-- R176: CLEAR completes in every state and leaves exactly this: the core blank, `STATUS` 0, the host operand registers kept. -/
def Obligations.ClearReturnsToIdle : Prop :=
  ∀ s : State,
    exec .clear s = .next { s with
      h := ⟨0, 0, 0, 0⟩, sseed := 0, inner := false, lbuf := Vector.replicate 16 0, lfill := 0, count := 0,
      width := .w64, dout := ⟨0, 0, 0, 0⟩, phase := .idle, ovr := false, err := .ok, running := none } ∧
    ∀ t, exec .clear s = .next t → t.status = 0 ∧ ∀ a, t.portByte a = s.portByte a

/-! ### The mixing engines and the byte order (40_mixing.md, 42_finalization.md, 00_scope.md) -/

/-- R103 with R9: mixA, with the rotations written as the library's rotate right. -/
def Obligations.MixAIsTheFourLineAlgorithm : Prop :=
  ∀ (c : Config) (h : Quad),
    let a := (h.w0 * c.p).rotateRight 23 * c.q
    let b := ((h.w1 ^^^ a) * c.r).rotateRight 29 * c.s
    let e := (h.w2 * c.t).rotateRight 31 * c.u
    let d := ((h.w3 ^^^ e) * c.v).rotateRight 37 * c.w
    mixA c h = ⟨a, b, e, d⟩

/-- R105 with R9: mixB; `H[0]` and `H[3]` are not changed. -/
def Obligations.MixBChangesWordsOneAndTwo : Prop :=
  ∀ (c : Config) (seed : Word) (h : Quad),
    let a := (h.w1 * c.v).rotateRight 23 * c.w
    let b := ((h.w2 ^^^ (a + seed)) * c.r).rotateRight 23 * c.s
    mixB c seed h = ⟨h.w0, a, b, h.w3⟩

/-- R104: the two halves of mixA are independent. -/
def Obligations.MixAHalvesAreIndependent : Prop :=
  ∀ (c : Config) (h h' : Quad),
    (h.w0 = h'.w0 → h.w1 = h'.w1 → (mixA c h).w0 = (mixA c h').w0 ∧ (mixA c h).w1 = (mixA c h').w1) ∧
    (h.w2 = h'.w2 → h.w3 = h'.w3 → (mixA c h).w2 = (mixA c h').w2 ∧ (mixA c h).w3 = (mixA c h').w3)

/-- R9: `rotr(x, k)` is `(x >> k) or (x << (64 - k))`, and bit `j` of it is bit `(j + k) mod 64` of `x`. -/
def Obligations.RotrMovesBitsDown : Prop :=
  ∀ (x : Word) (k : Nat), 1 ≤ k → k ≤ 63 →
    rotr x k = (x >>> k) ||| (x <<< (64 - k)) ∧ ∀ j < 64, (rotr x k).getLsbD j = x.getLsbD ((j + k) % 64)

/-- R10: the two formulas of `rd64` and of `wr64`, and that reading back the bytes a word is written as gives the word, in both
byte orders. -/
def Obligations.ReadingBackWrittenBytesGivesTheWord : Prop :=
  (∀ b : Nat → Byte,
    rd64 .le b =
      (b 0).setWidth 64 + ((b 1).setWidth 64 <<< 8) + ((b 2).setWidth 64 <<< 16) + ((b 3).setWidth 64 <<< 24) +
        ((b 4).setWidth 64 <<< 32) + ((b 5).setWidth 64 <<< 40) + ((b 6).setWidth 64 <<< 48) + ((b 7).setWidth 64 <<< 56) ∧
    rd64 .be b =
      (b 7).setWidth 64 + ((b 6).setWidth 64 <<< 8) + ((b 5).setWidth 64 <<< 16) + ((b 4).setWidth 64 <<< 24) +
        ((b 3).setWidth 64 <<< 32) + ((b 2).setWidth 64 <<< 40) + ((b 1).setWidth 64 <<< 48) + ((b 0).setWidth 64 <<< 56)) ∧
  (∀ (g : Word) (k : Nat), k < 8 → wr64 .le g k = g.extractLsb' (8 * k) 8 ∧ wr64 .be g k = g.extractLsb' (8 * (7 - k)) 8) ∧
  (∀ (e : Endian) (g : Word), rd64 e (wr64 e g) = g) ∧
  (∀ (e : Endian) (b : Nat → Byte) (k : Nat), k < 8 → wr64 e (rd64 e b) k = b k)

/-- R145 and the packing of R29: the digest byte at `8k + j` is byte `j` of the word as `wr64` writes it under `ENDIAN`, and lies
in `DOUT[k][8j+7:8j]`; the other digest registers keep their values. -/
def Obligations.DigestBytesLieInEndianOrder : Prop :=
  ∀ (e : Endian) (k k' : Fin 4) (g : Word) (d : Quad),
    (∀ j < 8, ((emit e k g d).get k).extractLsb' (8 * j) 8 = wr64 e g j) ∧
    (e = .le → (emit e k g d).get k = g) ∧
    (k' ≠ k → (emit e k g d).get k' = d.get k')

/-- R140: the closed form of the tail map, its operations, what each operation does to the target word, and that the map has a row
for each of the bytes 0 to 14 and no other. -/
def Obligations.TailMapHasItsClosedForm : Prop :=
  ∀ (t : TailOps) (i : Nat),
    (i < 15 → ∃ row, (tailMap t)[i]? = some row ∧ row.word.val = (18 - i) % 4 ∧
      row.shift = (if i ≤ 6 then 8 * i else 8 * (i - 7)) ∧
      [TailOp.add, t.op1, t.op2, t.op3, t.op4, t.op5, t.op6, .add, t.op8, t.op9, t.op10, t.op11, t.op12, t.op13, t.op14][i]? =
        some row.op ∧
      ∀ (b : Byte) (h : Quad),
        let x := h.get row.word
        let y : Word := b.setWidth 64 <<< row.shift
        (row.op = .add → tailByte t i b h = h.set row.word (x + y)) ∧
        (row.op = .or → tailByte t i b h = h.set row.word (x ||| y)) ∧
        (row.op = .xor → tailByte t i b h = h.set row.word (x ^^^ y))) ∧
    (15 ≤ i → (tailMap t)[i]? = none)

/-- R141: the cascade, whatever the operations are: byte `i` is folded in exactly when `i < r`, and the order is descending, byte
`r - 1` first and byte 0 last (the fold below applies `r - 1` innermost). Under the reference value of `TAIL_OP` (all `ADD`) the
order does not matter (fourth corner case; 90_conflicts.md C4). -/
def Obligations.TailCascadeRunsDownwards : Prop :=
  (∀ (t : TailOps) (b : Nat → Byte) (r : Nat) (h : Quad), r ≤ 15 →
    tailAbsorb t b r h = (List.range r).foldr (fun i x => tailByte t i (b i) x) h) ∧
  (∀ (b : Nat → Byte) (r : Nat) (h : Quad), r ≤ 15 → tailAbsorb allAdd b r h = tailAscending allAdd b r h)

/-- R144: the digest words and the hash state that extraction gives, for each width; and that the other operand order of the
subtraction emits the same word, `-(x + y)` (R101, 90_conflicts.md C2). -/
def Obligations.ExtractionEmitsTheWordsOfItsWidth : Prop :=
  (∀ (c : Config) (seed : Word) (h d : Quad),
    let e := c.endian
    let h1 := mixA c h
    let h2 := mixA c (mixB c seed (mixA c h1))
    let h3 := mixA c h2
    let d0 := emit e 0 (0 - h.w2 - h.w3) d
    let d1 := emit e 1 (0 - h1.w3 - h1.w2) d0
    extract c seed .w64 h d = (h, d0) ∧
    extract c seed .w128 h d = (h1, d1) ∧
    extract c seed .w256 h d = (h3, emit e 3 (0 - h3.w3 - h3.w2) (emit e 2 (0 - h2.w3 - h2.w2) d1))) ∧
  (∀ (c : Config) (seed : Word) (h d : Quad),
    let e := c.endian
    let h1 := mixA c h
    let h2 := mixA c (mixB c seed (mixA c h1))
    let h3 := mixA c h2
    (extract c seed .w256 h d).2 =
      emit e 3 (0 - h3.w2 - h3.w3) (emit e 2 (0 - h2.w2 - h2.w3) (emit e 1 (0 - h1.w2 - h1.w3) (emit e 0 (0 - h.w3 - h.w2) d))) ∧
    (extract c seed .w256 h d).2 =
      emit e 3 (-(h3.w2 + h3.w3)) (emit e 2 (-(h2.w2 + h2.w3)) (emit e 1 (-(h1.w2 + h1.w3)) (emit e 0 (-(h.w2 + h.w3)) d))))

/-! ### Whole-message properties -/

/-- R125, R122: any sequence of ABSORBs right after an INIT, of at most 16 bytes each, all completes; the state that results
depends only on the concatenated bytes `D`, of length `T`: the full lanes of `D` are in `H`, the rest in `LBUF`, `COUNT` is `T`,
`LFILL` is `T mod 16` and `INNER` the parity of the lanes. (Each ABSORB is `exec` with nothing running, so that it reads `DIN0` and
`DIN1` as its issue would latch them: the model's choice, log entry 10.) -/
def Obligations.ChunkingDoesNotMatter : Prop :=
  ∀ (s : State) (chunks : List (List Byte)),
    s.phase = .opened → s.lfill = 0 → s.inner = false → s.count = 0 → s.running = none → (∀ c ∈ chunks, c.length ≤ 16) →
    let D := fun k => chunks.flatten.getD k 0
    let T := chunks.flatten.length
    ∃ t, absorbChunks chunks s = .next t ∧
      t.h = laneRun s.cfg s.sseed D (T / 16) s.h ∧ t.inner = decide (T / 16 % 2 = 1) ∧ t.lfill.val = T % 16 ∧
      t.count = BitVec.ofNat 64 T ∧ (∀ k < T % 16, t.lbufByte k = D (16 * (T / 16) + k)) ∧
      t.phase = .opened ∧ t.sseed = s.sseed ∧ t.width = s.width ∧ t.dout = s.dout ∧ t.cfg = s.cfg

/-- R170, first part: a session INIT, ABSORBs, FINAL over the bytes `D` completes in `DONE` with the digest of `D` for the latched
seed, the declared length and the width, however `D` was split. (Each command is `exec` with nothing running, on the operands its
issue would latch: the model's choice, log entry 10.) -/
def Obligations.SessionDigestIsTheDigestOfItsBytes : Prop :=
  ∀ (s : State) (wd : Width) (chunks : List (List Byte)), s.running = none → (∀ c ∈ chunks, c.length ≤ 16) →
    ∃ t, session wd chunks s = .next t ∧ t.phase = .done ∧ t.err = .ok ∧
      t.dout = digestWords s.cfg s.seed s.length (fun k => chunks.flatten.getD k 0) chunks.flatten.length wd

/-- R170 with R14: a session fed exactly `LENGTH` bytes and an ONESHOT of the same seed, length, width and bytes leave the same
`DOUT`, which is `Rainbow` of the bytes. (Each command is `exec` with nothing running, on the operands its issue would latch: the
model's choice, log entry 10.) -/
def Obligations.SessionEqualsOneshotEqualsRainbow : Prop :=
  ∀ (s u : State) (wd : Width) (chunks : List (List Byte)),
    s.running = none → (∀ c ∈ chunks, c.length ≤ 16) → s.length = BitVec.ofNat 64 chunks.flatten.length →
    chunks.flatten.length < 2 ^ 64 →
    u.running = none → u.cfg = s.cfg → u.seed = s.seed → u.length = s.length →
    (∀ k < chunks.flatten.length, u.portByte (u.srcAddr.toNat + k) = chunks.flatten.getD k 0) →
    u.srcAddr.toNat < 2 ^ addrWidth u.cfg → u.srcAddr.toNat + u.length.toNat ≤ 2 ^ addrWidth u.cfg →
    u.unanswered u.srcAddr.toNat u.length.toNat = false → (u.latched (encode (.oneshot wd.code))).broken = false →
    ∃ t v, session wd chunks s = .next t ∧ exec (.oneshot wd.code) u = .next v ∧
      t.dout = v.dout ∧ v.dout = rainbow s.cfg chunks.flatten s.seed wd

/-- R146: the digest of one message at a smaller width is a prefix of its digest at a larger width. -/
def Obligations.SmallerDigestsArePrefixes : Prop :=
  ∀ (c : Config) (seed L : Word) (b : Nat → Byte) (n : Nat),
    (digestWords c seed L b n .w64).w0 = (digestWords c seed L b n .w256).w0 ∧
    (digestWords c seed L b n .w128).w0 = (digestWords c seed L b n .w256).w0 ∧
    (digestWords c seed L b n .w128).w1 = (digestWords c seed L b n .w256).w1 ∧
    (digestWords c seed L b n .w64).w1 = 0 ∧ (digestWords c seed L b n .w64).w2 = 0 ∧
    (digestWords c seed L b n .w64).w3 = 0 ∧ (digestWords c seed L b n .w128).w2 = 0 ∧
    (digestWords c seed L b n .w128).w3 = 0

/-! ### Issue, completion, the register window -/

/-- A step runs the decoded command: when a command is running and its latency elapses (the next event, or no event left), the
step is the command's meaning; a word that does not decode is rejected with its code (R161, R162). -/
def Obligations.StepPerformsTheIssuedCommand : Prop :=
  ∀ (s : State) (l : Latched), s.running = some l →
    (∀ i, decode l.cw = .ok i →
      (s.events = [] → step s = exec i s) ∧
      (∀ rest, s.events = .elapse :: rest → step s = exec i { s with events := rest })) ∧
    (∀ e, decode l.cw = .error e →
      (s.events = [] → step s = .next { s with err := codeOfDecodeError e, running := none }) ∧
      (∀ rest, s.events = .elapse :: rest →
        step s = .next { s with events := rest, err := codeOfDecodeError e, running := none }))

/-- R160: a whole write of a word to `CTRL` while `BUSY = 0` issues it: the operands are latched, `BUSY` becomes 1, and nothing
else changes. The latched command carries the model's mark of the duties of R66 broken already (log entry 7): a byte of its buffer is
affected exactly when a store to it is not visible yet, and then may hold what the port shows or what was stored, or when it lies where
reads have side effects. -/
def Obligations.CtrlWriteIssuesACommand : Prop :=
  ∀ (s : State) (cw : Word) (rest : List Event),
    s.running = none → s.events = writeEvent s.cfg .ctrl cw :: rest →
    ∃ l, step s = .next { s with events := rest, running := some l } ∧
      l.cw = cw ∧ l.seed = s.seed ∧ l.length = s.length ∧ l.srcAddr = s.srcAddr ∧ l.din0 = s.din0 ∧ l.din1 = s.din1 ∧
      ∀ a,
        let inBuffer := s.srcAddr.toNat ≤ a ∧ a < s.srcAddr.toNat + s.length.toNat
        (l.affected a = true ↔ inBuffer ∧ ((∃ c ∈ s.staged, c.1 = a) ∨ sideEffectAt s.regions a)) ∧
        (∀ v, v ∈ l.heldAt a ↔ inBuffer ∧ ∃ c ∈ s.staged, c.1 = a ∧ (v = s.portByte a ∨ v = c.2)) ∧
        (l.unstableAt a = true ↔ inBuffer ∧ sideEffectAt s.regions a)

/-- R66, R244 (log entries 7, 8, 9): an agent's store to a byte of the buffer of the running command, and a map that puts a byte of it
where reads have side effects, break a duty for that byte and no other; nothing unmarks one. The stored byte may hold what the port
shows or what is stored, beside what it may have held before. A duty is broken for the command when it is for some byte. A store is
staged, and reads through the port do not see it yet; a store past the buffer space faults; a new map changes the map and nothing
else. -/
def Obligations.StoresAndMapsMarkTheRunningCommand : Prop :=
  (∀ (s : State) (a : Nat) (v : Byte) (rest : List Event), s.events = .store a v :: rest →
    (2 ^ addrWidth s.cfg ≤ a → step s = .fault .outsideBuffer) ∧
    (a < 2 ^ addrWidth s.cfg → ∃ t, step s = .next t ∧
      t = { s with events := rest, staged := s.staged ++ [(a, v)], running := t.running } ∧
      (s.running = none → t.running = none) ∧
      (∀ l, s.running = some l → ∃ l', t.running = some l' ∧ l' = { l with held := l'.held } ∧
        ∀ b, l'.unstableAt b = l.unstableAt b ∧
          ∀ w, w ∈ l'.heldAt b ↔ w ∈ l.heldAt b ∨
            (b = a ∧ l.srcAddr.toNat ≤ a ∧ a < l.srcAddr.toNat + l.length.toNat ∧ (w = s.portByte a ∨ w = v))) ∧
      ∀ x, t.portByte x = s.portByte x)) ∧
  (∀ (s : State) (rs : List Region) (rest : List Event), s.events = .remap rs :: rest →
    ∃ t, step s = .next t ∧ t = { s with events := rest, regions := rs, running := t.running } ∧
      (s.running = none → t.running = none) ∧
      (∀ l, s.running = some l → ∃ l', t.running = some l' ∧ l' = { l with unstable := l'.unstable } ∧
        ∀ b, l'.heldAt b = l.heldAt b ∧
          (l'.unstableAt b = true ↔ l.unstableAt b = true ∨
            (l.srcAddr.toNat ≤ b ∧ b < l.srcAddr.toNat + l.length.toNat ∧ sideEffectAt rs b))) ∧
      ∀ x, t.portByte x = s.portByte x) ∧
  ∀ l : Latched, (l.broken = true ↔ ∃ a, l.affected a = true) ∧
    ∀ a, l.affected a = true ↔ (∃ v, v ∈ l.heldAt a) ∨ l.unstableAt a = true

/-- R205: a write to `CTRL` while `BUSY = 1` is dropped: it changes neither `ERR` nor the running command, nor anything else but
`OVR`, which becomes 1. `OVR` rises at nothing else (R35), and then stays 1 until CLEAR or reset. -/
def Obligations.CtrlWriteWhileBusyIsDropped : Prop :=
  (∀ (s : State) (l : Latched) (cw : Word) (rest : List Event),
    s.running = some l → s.events = writeEvent s.cfg .ctrl cw :: rest →
    step s = .next { s with events := rest, ovr := true }) ∧
  (∀ s t : State, step s = .next t → s.ovr = false → t.ovr = true → s.busy = true ∧ ∃ cw, s.writesCtrl cw) ∧
  (∀ s t : State, step s = .next t → s.ovr = true → t.ovr = false →
    (∃ rest, s.events = .reset :: rest) ∨
      (∃ l, s.running = some l ∧ decode l.cw = .ok .clear ∧ (s.events = [] ∨ ∃ rest, s.events = .elapse :: rest)))

/-- R160, R243: writes to the host operand registers while a command runs do not affect it: with other values in them, the
command does the same and leaves those other values. -/
def Obligations.OperandWritesDoNotTouchTheRunningCommand : Prop :=
  ∀ (s t : State) (l : Latched) (i : Instr) (a b c d e : Word), s.running = some l → exec i s = .next t →
    exec i (s.withOperands a b c d e) = .next (t.withOperands a b c d e)

/-- R178: a whole write of an operand register stores all 64 bits, whether `BUSY` is 0 or 1, and changes nothing else; a write of
a read-only register is ignored. -/
def Obligations.OperandRegistersStoreTheirWrites : Prop :=
  ∀ (s : State) (r : Reg) (v : Word) (rest : List Event), s.events = writeEvent s.cfg r v :: rest → r ≠ .ctrl →
    ∃ t, step s = .next t ∧
      t = { s with
        events := rest
        seed := if r = .seed then v else s.seed
        length := if r = .length then v else s.length
        srcAddr := if r = .srcAddr then v else s.srcAddr
        din0 := if r = .din0 then v else s.din0
        din1 := if r = .din1 then v else s.din1 }

/-- R51, R177: the sixteen registers lie at their offsets; a whole read of a register while `BUSY = 0` returns its value and changes
no state (only the model's own `rdata`, log entry 5, and the schedule). -/
def Obligations.IdleReadsReturnTheRegisters : Prop :=
  (Reg.ctrl.offset = 0x00 ∧ Reg.status.offset = 0x08 ∧ Reg.seed.offset = 0x10 ∧ Reg.length.offset = 0x18 ∧
    Reg.srcAddr.offset = 0x20 ∧ Reg.din0.offset = 0x28 ∧ Reg.din1.offset = 0x30 ∧ Reg.count.offset = 0x38 ∧
    Reg.h0.offset = 0x40 ∧ Reg.h1.offset = 0x48 ∧ Reg.h2.offset = 0x50 ∧ Reg.h3.offset = 0x58 ∧
    Reg.dout0.offset = 0x60 ∧ Reg.dout1.offset = 0x68 ∧ Reg.dout2.offset = 0x70 ∧ Reg.dout3.offset = 0x78) ∧
  ∀ (s : State) (off : Nat) (rest : List Event),
    s.running = none → off < 0x80 → off % 8 = 0 → s.events = .read (regBase s.cfg + off) 8 :: rest →
    ∃ v, step s = .next { s with events := rest, rdata := v } ∧
      (off = 0x00 → v = 0) ∧ (off = 0x08 → v = s.status) ∧ (off = 0x10 → v = s.seed) ∧ (off = 0x18 → v = s.length) ∧
      (off = 0x20 → v = s.srcAddr) ∧ (off = 0x28 → v = s.din0) ∧ (off = 0x30 → v = s.din1) ∧ (off = 0x38 → v = s.count) ∧
      (off = 0x40 → v = s.h.w0) ∧ (off = 0x48 → v = s.h.w1) ∧ (off = 0x50 → v = s.h.w2) ∧ (off = 0x58 → v = s.h.w3) ∧
      (off = 0x60 → v = s.dout.w0) ∧ (off = 0x68 → v = s.dout.w1) ∧ (off = 0x70 → v = s.dout.w2) ∧
      (off = 0x78 → v = s.dout.w3)

/-- R241 without its "any value" reads: while `BUSY = 1`, `STATUS` reads with `BUSY = 1`, the operand registers return the last
value written, `CTRL` and the reserved offsets return 0; no read changes a state element of the core. -/
def Obligations.BusyReadsKeepTheirFixedParts : Prop :=
  ∀ (s : State) (l : Latched) (off : Nat) (rest : List Event),
    s.running = some l → off < 256 → off % 8 = 0 → s.events = .read (regBase s.cfg + off) 8 :: rest →
    ∃ t, step s = .next t ∧ t = { s with events := rest, rdata := t.rdata, draws := t.draws } ∧
      (off = 0x08 → t.rdata.getLsbD 0 = true) ∧ (off = 0x00 → t.rdata = 0) ∧ (0x80 ≤ off → t.rdata = 0) ∧
      (off = 0x10 → t.rdata = s.seed) ∧ (off = 0x18 → t.rdata = s.length) ∧ (off = 0x20 → t.rdata = s.srcAddr) ∧
      (off = 0x28 → t.rdata = s.din0) ∧ (off = 0x30 → t.rdata = s.din1)

/-- R53: a whole read at a reserved offset returns 0, a whole write there is ignored. -/
def Obligations.ReservedOffsetsReadZeroIgnoreWrites : Prop :=
  ∀ (s : State) (off : Nat) (v : Word) (rest : List Event), 0x80 ≤ off → off < 256 → off % 8 = 0 →
    (s.events = .read (regBase s.cfg + off) 8 :: rest → step s = .next { s with events := rest, rdata := 0 }) ∧
    (s.events = .write (regBase s.cfg + off) 8 v :: rest → step s = .next { s with events := rest })

/-- R52: a register access that is not a 64-bit access at an offset that is a multiple of 8 is refused. -/
def Obligations.NarrowOrMisalignedAccessIsRefused : Prop :=
  ∀ (s : State) (off size : Nat) (v : Word) (rest : List Event), off < 256 → (size ≠ 8 ∨ off % 8 ≠ 0) →
    (s.events = .read (regBase s.cfg + off) size :: rest → step s = .refused .narrowAccess) ∧
    (s.events = .write (regBase s.cfg + off) size v :: rest → step s = .refused .narrowAccess)

/-- R35: the fields of `STATUS` at their bits, with the codes of the phases (R28), widths (R27) and results (R200); the reserved bits
read 0. -/
def Obligations.StatusFieldsLieAtTheirBits : Prop :=
  (Phase.idle.code = 0 ∧ Phase.opened.code = 1 ∧ Phase.done.code = 2) ∧
  (Width.w64.code = 0 ∧ Width.w128.code = 1 ∧ Width.w256.code = 2) ∧
  (ResultCode.ok.code = 0 ∧ ResultCode.badOp.code = 1 ∧ ResultCode.badWidth.code = 2 ∧ ResultCode.badCount.code = 3 ∧
    ResultCode.noSession.code = 4 ∧ ResultCode.closed.code = 5 ∧ ResultCode.range.code = 6) ∧
  ∀ s : State,
    s.status.extractLsb' 0 1 = BitVec.ofBool s.busy ∧ s.status.extractLsb' 1 2 = s.phase.code ∧
    s.status.extractLsb' 3 1 = BitVec.ofBool s.inner ∧ (s.status.extractLsb' 4 4).toNat = s.lfill.val ∧
    s.status.extractLsb' 8 2 = s.width.code ∧ s.status.extractLsb' 10 1 = BitVec.ofBool s.ovr ∧
    s.status.extractLsb' 11 5 = 0 ∧ s.status.extractLsb' 16 4 = s.err.code ∧ s.status.extractLsb' 20 44 = 0

/-- R33: data byte `k` is `DIN[k div 8][8(k mod 8)+7 : 8(k mod 8)]`. R90: `feed` writes `DIN0` and `DIN1`, issues the ABSORB of its
number of bytes and waits, and what it writes has byte `k` of the chunk as data byte `k`, and 0 where no byte is given. -/
def Obligations.FeedPacksTheChunk : Prop :=
  (∀ (d0 d1 : Word) (k : Nat), k < 16 →
    dataByte d0 d1 k = (if k / 8 = 0 then d0 else d1).extractLsb' (8 * (k % 8)) 8) ∧
  (∀ (bytes : List Byte), bytes.length ≤ 16 →
    programAccesses [.feed bytes] =
      [.write .din0 (feedLow bytes), .write .din1 (feedHigh bytes), .write .ctrl (BitVec.ofNat 64 (0x02 + 256 * bytes.length)),
       .wait] ∧
    ∀ k < 16, dataByte (feedLow bytes) (feedHigh bytes) k = bytes.getD k 0)

/-- R89: a turn of the host program does what the bus access of its next statement does, and takes the statement off the program;
`wait` reads `STATUS`, and is taken off exactly when `BUSY = 0` (log entry 13: when the turns come is the schedule's). -/
def Obligations.HostTurnsPerformTheProgram : Prop :=
  ∀ (s : State) (rest : List Event), s.events = .host :: rest →
    (s.program = [] → step s = .next { s with events := rest }) ∧
    (∀ r v p, s.program = .write r v :: p →
      step s = step { s with events := writeEvent s.cfg r v :: rest, program := p }) ∧
    (∀ r p, s.program = .read r :: p → step s = step { s with events := readEvent s.cfg r :: rest, program := p }) ∧
    (∀ p, s.program = .wait :: p →
      step s = step { s with events := readEvent s.cfg .status :: rest, program := if s.busy then .wait :: p else p } ∧
        ∃ t, step s = .next t ∧ t.rdata.getLsbD 0 = s.busy ∧ t.running = s.running)

/-! ### Reset and the whole machine -/

/-- R230, R40: every element of the core has its reset value. -/
def Obligations.ResetValuesAreTheSpecs : Prop :=
  State.reset.h = ⟨0, 0, 0, 0⟩ ∧ State.reset.sseed = 0 ∧ State.reset.inner = false ∧
    (∀ k < 16, State.reset.lbufByte k = 0) ∧ State.reset.lfill = 0 ∧ State.reset.count = 0 ∧ State.reset.width.code = 0 ∧
    State.reset.phase = .idle ∧ State.reset.busy = false ∧ State.reset.ovr = false ∧ State.reset.err = .ok ∧
    State.reset.dout = ⟨0, 0, 0, 0⟩ ∧ State.reset.seed = 0 ∧ State.reset.length = 0 ∧ State.reset.srcAddr = 0 ∧
    State.reset.din0 = 0 ∧ State.reset.din1 = 0

/-- R230, R231: a reset, also while a command runs, gives every element of the core its reset value; the command is abandoned and
none of its effects survive. -/
def Obligations.ResetSetsEveryElement : Prop :=
  ∀ (s : State) (rest : List Event), s.events = .reset :: rest →
    ∃ t, step s = .next t ∧ t.running = none ∧
      t.h = ⟨0, 0, 0, 0⟩ ∧ t.sseed = 0 ∧ t.inner = false ∧ (∀ k < 16, t.lbufByte k = 0) ∧ t.lfill = 0 ∧ t.count = 0 ∧
      t.width.code = 0 ∧ t.phase = .idle ∧ t.busy = false ∧ t.ovr = false ∧ t.err = .ok ∧ t.dout = ⟨0, 0, 0, 0⟩ ∧
      t.seed = 0 ∧ t.length = 0 ∧ t.srcAddr = 0 ∧ t.din0 = 0 ∧ t.din1 = 0

/-- The invariant holds at reset. -/
def Obligations.InvariantHoldsAtReset : Prop := State.reset.Inv

/-- Every step keeps the invariant: the buffer space stays canonical, `LFILL` and `INNER` stay the ones `COUNT` gives, `IDLE` is
blank, `OPEN` has no digest (R28, R29, R122, R124, R125, R173, R176). -/
def Obligations.EveryStepKeepsTheInvariant : Prop :=
  ∀ s t : State, s.Inv → step s = .next t → t.Inv

/-- R61 of `ENDIAN`, R5 of the other build parameters: no step changes one. (That they stand in a field of the state which no step
changes is the model's choice, log entry 1.) -/
def Obligations.BuildParametersNeverChange : Prop :=
  ∀ s t : State, step s = .next t → t.cfg = s.cfg

/-- R56: the core never writes the input buffer space: no command changes a byte of it, and a step changes one only by another
agent's store becoming visible. (That a store becomes visible at the platform's fence and nowhere else, that a read with side
effects leaves the bytes of its region as they were, and that reset leaves the buffer space as it is, are the model's choices, log
entries 7 and 12.) -/
def Obligations.CoreNeverWritesTheBufferSpace : Prop :=
  (∀ (s t : State) (i : Instr), exec i s = .next t →
    t.mem = s.mem ∧ t.staged = s.staged ∧ ∀ a, t.portByte a = s.portByte a) ∧
  (∀ (s t : State) (a : Nat), step s = .next t → t.portByte a ≠ s.portByte a → ∃ rest, s.events = .fence :: rest)

/-- R56 with the first duty of R66 (log entries 6 and 7): at the platform's fence every byte reads through the port as the last
store to it since the last fence, and as before where there was none; nothing else changes. -/
def Obligations.FenceMakesTheStoresVisible : Prop :=
  ∀ (s : State) (rest : List Event), s.events = .fence :: rest → Memory.wf s.mem →
    ∃ t, step s = .next t ∧ t = { s with events := rest, mem := t.mem, staged := [] } ∧
      ∀ a, t.portByte a = ((s.staged.reverse.find? (fun c => c.1 == a)).map (fun c => c.2)).getD (s.portByte a)

/-- R21: only initialisation, lane absorption, close and extract, CLEAR and reset write `H`: a step that changes `H` is a reset or
the accepted completion of an INIT, ABSORB, FINAL, ONESHOT or CLEAR. -/
def Obligations.OnlyTheListedOperationsWriteH : Prop :=
  ∀ s t : State, step s = .next t → t.h ≠ s.h →
    (∃ rest, s.events = .reset :: rest) ∨
      (∃ l i, s.running = some l ∧ decode l.cw = .ok i ∧ i ≠ .nop ∧ t.err = .ok ∧ t.running = none ∧
        (s.events = [] ∨ ∃ rest, s.events = .elapse :: rest))

/-- R24: FINAL and NOP do not change `INNER`, nor does any rejected command, and no step but a reset or the accepted completion of an INIT,
ABSORB, ONESHOT or CLEAR does. -/
def Obligations.OnlyLanesInitAndClearChangeInner : Prop :=
  ∀ s t : State, step s = .next t → t.inner ≠ s.inner →
    (∃ rest, s.events = .reset :: rest) ∨
      (∃ l i, s.running = some l ∧ decode l.cw = .ok i ∧ i ≠ .nop ∧ i ≠ .final ∧ t.err = .ok ∧ t.running = none ∧
        (s.events = [] ∨ ∃ rest, s.events = .elapse :: rest))

/-- R245: when every input-buffer read is answered, every running command ends: the step in which its latency elapses leaves
`BUSY = 0`. (Answered is judged by the platform's map at that step: the model's choice, log entry 8.) -/
def Obligations.EveryAnsweredCommandEnds : Prop :=
  ∀ (s : State) (l : Latched), s.running = some l → s.unanswered l.srcAddr.toNat l.length.toNat = false →
    (s.events = [] ∨ ∃ rest, s.events = .elapse :: rest) → ∃ t, step s = .next t ∧ t.running = none

/-- R240: `BUSY` rises only when a command is issued and falls only in the step in which the command completes, or at reset. -/
def Obligations.BusyRisesAtIssueAndFallsAtCompletion : Prop :=
  ∀ s t : State, step s = .next t →
    (s.busy = false → t.busy = true → ∃ cw, s.writesCtrl cw) ∧
    (s.busy = true → t.busy = false →
      s.events = [] ∨ (∃ rest, s.events = .elapse :: rest) ∨ ∃ rest, s.events = .reset :: rest)
end

