-- ==== Sys2Proof/Laws/Decode.lean ====
section
/-! SUPPORT. Laws of the command word (spec 30_encoding.md R81 to R88): its five fields, and what an accepted word looks like. -/

namespace Sys2Proof

/-- The five fields of the format cover the word (R81): words with equal fields are equal. -/
theorem word_ext {a b : Word} (ho : opField a = opField b) (hw : wField a = wField b) (hl : reservedLow a = reservedLow b)
    (hn : nField a = nField b) (hh : reservedHigh a = reservedHigh b) : a = b := by
  have nat := fun {n : Nat} {x y : BitVec n} (h : x = y) => congrArg BitVec.toNat h
  replace ho := nat ho
  replace hw := nat hw
  replace hl := nat hl
  replace hn := nat hn
  replace hh := nat hh
  simp only [opField, wField, reservedLow, nField, reservedHigh, BitVec.extractLsb'_toNat,
    Nat.shiftRight_eq_div_pow] at ho hw hl hn hh
  apply BitVec.eq_of_toNat_eq
  have := a.isLt
  have := b.isLt
  omega

/-- A mask acts on each field for itself. -/
theorem and_fields (a m : Word) :
    opField (a &&& m) = opField a &&& opField m ∧ wField (a &&& m) = wField a &&& wField m ∧
      reservedLow (a &&& m) = reservedLow a &&& reservedLow m ∧ nField (a &&& m) = nField a &&& nField m ∧
      reservedHigh (a &&& m) = reservedHigh a &&& reservedHigh m := by
  simp [opField, wField, reservedLow, nField, reservedHigh, BitVec.extractLsb'_and]

/-- `(word and mask) = match`, field by field (R88). -/
theorem and_eq_iff_fields (a m v : Word) :
    a &&& m = v ↔
      opField a &&& opField m = opField v ∧ wField a &&& wField m = wField v ∧
        reservedLow a &&& reservedLow m = reservedLow v ∧ nField a &&& nField m = nField v ∧
        reservedHigh a &&& reservedHigh m = reservedHigh v := by
  obtain ⟨ho, hw, hl, hn, hh⟩ := and_fields a m
  constructor
  · rintro rfl
    exact ⟨ho.symm, hw.symm, hl.symm, hn.symm, hh.symm⟩
  · rintro ⟨go, gw, gl, gn, gh⟩
    exact word_ext (ho.trans go) (hw.trans gw) (hl.trans gl) (hn.trans gn) (hh.trans gh)

/-- The inversion lemma of the decoder: the fields of a word that is accepted (R82 to R86). -/
theorem decode_cases {cw : Word} {i : Instr} (h : decode cw = .ok i) :
    reservedLow cw = 0#2 ∧ reservedHigh cw = 0#51 ∧
      ((i = .nop ∧ opField cw = 0 ∧ wField cw = 0 ∧ nField cw = 0) ∨
       (i = .init (wField cw) ∧ opField cw = 1 ∧ wField cw ≠ 3 ∧ nField cw = 0) ∨
       (i = .absorb (nField cw) ∧ opField cw = 2 ∧ wField cw = 0 ∧ (nField cw).toNat ≤ 16) ∨
       (i = .final ∧ opField cw = 3 ∧ wField cw = 0 ∧ nField cw = 0) ∨
       (i = .oneshot (wField cw) ∧ opField cw = 4 ∧ wField cw ≠ 3 ∧ nField cw = 0) ∨
       (i = .clear ∧ opField cw = 5 ∧ wField cw = 0 ∧ nField cw = 0)) := by
  unfold decode at h
  split at h
  · cases h
  next hres =>
  have op : ∀ k : BitVec 4, (opField cw).toNat = k.toNat → opField cw = k := fun k => BitVec.toNat_inj.mp
  have plain : ∀ {j : Instr}, decodePlain cw j = .ok i → i = j ∧ wField cw = 0 ∧ nField cw = 0 := by
    intro j hj
    simp only [decodePlain] at hj
    split at hj <;> cases hj
    next hf => exact ⟨rfl, hf⟩
  have width : ∀ {j : BitVec 2 → Instr}, decodeWidth cw j = .ok i → i = j (wField cw) ∧ wField cw ≠ 3 ∧ nField cw = 0 := by
    intro j hj
    simp only [decodeWidth] at hj
    split at hj
    · cases hj
    · split at hj <;> cases hj
      next hn hw => exact ⟨rfl, hw, by simpa using hn⟩
  have count : decodeCount cw .absorb = .ok i → i = .absorb (nField cw) ∧ wField cw = 0 ∧ (nField cw).toNat ≤ 16 := by
    intro hj
    simp only [decodeCount] at hj
    split at hj
    · cases hj
    · split at hj <;> cases hj
      next hw hn => exact ⟨rfl, by simpa using hw, Nat.le_of_not_lt hn⟩
  refine ⟨by simpa using fun hc => hres (.inl hc), by simpa using fun hc => hres (.inr hc), ?_⟩
  split at h
  · next ho => have g := plain h; exact .inl ⟨g.1, op 0 ho, g.2⟩
  · next ho => have g := width h; exact .inr (.inl ⟨g.1, op 1 ho, g.2⟩)
  · next ho => have g := count h; exact .inr (.inr (.inl ⟨g.1, op 2 ho, g.2⟩))
  · next ho => have g := plain h; exact .inr (.inr (.inr (.inl ⟨g.1, op 3 ho, g.2⟩)))
  · next ho => have g := width h; exact .inr (.inr (.inr (.inr (.inl ⟨g.1, op 4 ho, g.2⟩))))
  · next ho => have g := plain h; exact .inr (.inr (.inr (.inr (.inr ⟨g.1, op 5 ho, g.2⟩))))
  · cases h

/-- The operand fields that an encoded command carries (R81). -/
theorem encode_operands (i : Instr) :
    wField (encode i) = (match i with | .init w => w | .oneshot w => w | _ => 0) ∧
      nField (encode i) = (match i with | .absorb n => n | _ => 0) := by
  cases i with
  | init w => revert w; decide
  | absorb n => revert n; decide
  | oneshot w => revert w; decide
  | _ => decide

end Sys2Proof
end

