-- ==== Sys2Proof/Laws/Memory.lean ====
section
/-! SUPPORT. The laws of the input buffer space: a store is read back, leaves every other address alone, and keeps the canonical
form; so does the platform's fence. -/

namespace Sys2Proof.Machine

theorem Memory.byte?_store (m : Memory) (a a' : Nat) (v : Byte) (h : Memory.wf m) :
    Memory.byte? (Memory.store m a v) a' = if a' = a then some v else Memory.byte? m a' := by
  induction m with
  | nil => rfl
  | cons c m ih =>
    obtain ⟨b, x⟩ := c
    unfold Memory.store
    split
    · rfl
    · split
      · next hab =>
        subst hab
        simp only [Memory.byte?]
        split <;> rfl
      · next hab =>
        simp only [Memory.byte?, ih (List.Pairwise.of_cons h)]
        split
        · next hb => rw [if_neg]; omega
        · rfl

/-- A store lists no address but the one stored to and those listed before. -/
theorem Memory.mem_store {m : Memory} {a : Nat} {v : Byte} {c : Host.Cell} (h : c ∈ Memory.store m a v) :
    c = (a, v) ∨ c ∈ m := by
  induction m with
  | nil => simpa [Memory.store] using h
  | cons d m ih =>
    obtain ⟨b, x⟩ := d
    unfold Memory.store at h
    split at h
    · simpa using h
    · split at h
      · rcases List.mem_cons.mp h with h | h
        · exact .inl h
        · exact .inr (List.mem_cons_of_mem _ h)
      · rcases List.mem_cons.mp h with h | h
        · exact .inr (h ▸ List.mem_cons_self)
        · rcases ih h with h | h
          · exact .inl h
          · exact .inr (List.mem_cons_of_mem _ h)

theorem Memory.store_wf {m : Memory} {a : Nat} {v : Byte} (h : Memory.wf m) : Memory.wf (Memory.store m a v) := by
  induction m with
  | nil => exact List.pairwise_singleton _ _
  | cons c m ih =>
    obtain ⟨b, x⟩ := c
    have hb := List.pairwise_cons.mp h
    unfold Memory.store
    split
    · next hab =>
      refine List.pairwise_cons.mpr ⟨fun y hy => ?_, h⟩
      rcases List.mem_cons.mp hy with rfl | hy
      · exact hab
      · exact Nat.lt_trans hab (hb.1 y hy)
    · split
      · next hab => exact List.pairwise_cons.mpr ⟨fun y hy => hab ▸ hb.1 y hy, hb.2⟩
      · next h1 h2 =>
        refine List.pairwise_cons.mpr ⟨fun y hy => ?_, ih hb.2⟩
        rcases Memory.mem_store hy with rfl | hy
        · show b < a
          omega
        · exact hb.1 y hy

theorem Memory.stores_wf {cells : List Host.Cell} {m : Memory} (h : Memory.wf m) :
    Memory.wf (cells.foldl (fun m c => Memory.store m c.1 c.2) m) := by
  induction cells generalizing m with
  | nil => exact h
  | cons c cs ih => exact ih (Memory.store_wf h)

theorem Memory.mem_stores {cells : List Host.Cell} {m : Memory} {c : Host.Cell}
    (h : c ∈ cells.foldl (fun m c => Memory.store m c.1 c.2) m) : c ∈ cells ∨ c ∈ m := by
  induction cells generalizing m with
  | nil => exact .inr h
  | cons d cs ih =>
    rcases ih h with h | h
    · exact .inl (List.mem_cons_of_mem _ h)
    · rcases Memory.mem_store h with h | h
      · exact .inl (h ▸ List.mem_cons_self)
      · exact .inr h

/-- The platform's fence keeps the canonical form (the only operation of the machine that changes the listed memory). -/
theorem State.fenceStores_wf {s : State} (h : Memory.wf s.mem) : Memory.wf s.fenceStores.mem := Memory.stores_wf h

theorem State.reset_memory_wf : Memory.wf State.reset.mem := List.Pairwise.nil

end Sys2Proof.Machine
end

