-- ==== Sys2Proof/Laws/State.lean ====
section
/-! SUPPORT. One lemma per field per update of the state, each true by `rfl`, so that no later proof unfolds a record update.
The updates with a loop or a case split have their lemmas in Laws/Ops.lean. -/

namespace Sys2Proof.Machine

variable (s : State)

/-! ### `State.initHash` -/

@[simp] theorem State.initHash_cfg (a b : Word) : (s.initHash a b).cfg = s.cfg := rfl
@[simp] theorem State.initHash_h (a b : Word) : (s.initHash a b).h = initState a b := rfl
@[simp] theorem State.initHash_sseed (a b : Word) : (s.initHash a b).sseed = s.sseed := rfl
@[simp] theorem State.initHash_inner (a b : Word) : (s.initHash a b).inner = false := rfl
@[simp] theorem State.initHash_lbuf (a b : Word) : (s.initHash a b).lbuf = s.lbuf := rfl
@[simp] theorem State.initHash_lfill (a b : Word) : (s.initHash a b).lfill = s.lfill := rfl
@[simp] theorem State.initHash_count (a b : Word) : (s.initHash a b).count = s.count := rfl
@[simp] theorem State.initHash_width (a b : Word) : (s.initHash a b).width = s.width := rfl
@[simp] theorem State.initHash_phase (a b : Word) : (s.initHash a b).phase = s.phase := rfl
@[simp] theorem State.initHash_ovr (a b : Word) : (s.initHash a b).ovr = s.ovr := rfl
@[simp] theorem State.initHash_err (a b : Word) : (s.initHash a b).err = s.err := rfl
@[simp] theorem State.initHash_dout (a b : Word) : (s.initHash a b).dout = s.dout := rfl
@[simp] theorem State.initHash_seed (a b : Word) : (s.initHash a b).seed = s.seed := rfl
@[simp] theorem State.initHash_length (a b : Word) : (s.initHash a b).length = s.length := rfl
@[simp] theorem State.initHash_srcAddr (a b : Word) : (s.initHash a b).srcAddr = s.srcAddr := rfl
@[simp] theorem State.initHash_din0 (a b : Word) : (s.initHash a b).din0 = s.din0 := rfl
@[simp] theorem State.initHash_din1 (a b : Word) : (s.initHash a b).din1 = s.din1 := rfl
@[simp] theorem State.initHash_running (a b : Word) : (s.initHash a b).running = s.running := rfl
@[simp] theorem State.initHash_mem (a b : Word) : (s.initHash a b).mem = s.mem := rfl
@[simp] theorem State.initHash_staged (a b : Word) : (s.initHash a b).staged = s.staged := rfl
@[simp] theorem State.initHash_regions (a b : Word) : (s.initHash a b).regions = s.regions := rfl
@[simp] theorem State.initHash_events (a b : Word) : (s.initHash a b).events = s.events := rfl
@[simp] theorem State.initHash_program (a b : Word) : (s.initHash a b).program = s.program := rfl
@[simp] theorem State.initHash_rdata (a b : Word) : (s.initHash a b).rdata = s.rdata := rfl
@[simp] theorem State.initHash_draws (a b : Word) : (s.initHash a b).draws = s.draws := rfl

/-! ### `State.lane` -/

@[simp] theorem State.lane_cfg (b : Nat → Byte) : (s.lane b).cfg = s.cfg := rfl
@[simp] theorem State.lane_h (b : Nat → Byte) : (s.lane b).h = laneState s.cfg s.sseed s.inner b s.h := rfl
@[simp] theorem State.lane_sseed (b : Nat → Byte) : (s.lane b).sseed = s.sseed := rfl
@[simp] theorem State.lane_inner (b : Nat → Byte) : (s.lane b).inner = !s.inner := rfl
@[simp] theorem State.lane_lbuf (b : Nat → Byte) : (s.lane b).lbuf = s.lbuf := rfl
@[simp] theorem State.lane_lfill (b : Nat → Byte) : (s.lane b).lfill = s.lfill := rfl
@[simp] theorem State.lane_count (b : Nat → Byte) : (s.lane b).count = s.count := rfl
@[simp] theorem State.lane_width (b : Nat → Byte) : (s.lane b).width = s.width := rfl
@[simp] theorem State.lane_phase (b : Nat → Byte) : (s.lane b).phase = s.phase := rfl
@[simp] theorem State.lane_ovr (b : Nat → Byte) : (s.lane b).ovr = s.ovr := rfl
@[simp] theorem State.lane_err (b : Nat → Byte) : (s.lane b).err = s.err := rfl
@[simp] theorem State.lane_dout (b : Nat → Byte) : (s.lane b).dout = s.dout := rfl
@[simp] theorem State.lane_seed (b : Nat → Byte) : (s.lane b).seed = s.seed := rfl
@[simp] theorem State.lane_length (b : Nat → Byte) : (s.lane b).length = s.length := rfl
@[simp] theorem State.lane_srcAddr (b : Nat → Byte) : (s.lane b).srcAddr = s.srcAddr := rfl
@[simp] theorem State.lane_din0 (b : Nat → Byte) : (s.lane b).din0 = s.din0 := rfl
@[simp] theorem State.lane_din1 (b : Nat → Byte) : (s.lane b).din1 = s.din1 := rfl
@[simp] theorem State.lane_running (b : Nat → Byte) : (s.lane b).running = s.running := rfl
@[simp] theorem State.lane_mem (b : Nat → Byte) : (s.lane b).mem = s.mem := rfl
@[simp] theorem State.lane_staged (b : Nat → Byte) : (s.lane b).staged = s.staged := rfl
@[simp] theorem State.lane_regions (b : Nat → Byte) : (s.lane b).regions = s.regions := rfl
@[simp] theorem State.lane_events (b : Nat → Byte) : (s.lane b).events = s.events := rfl
@[simp] theorem State.lane_program (b : Nat → Byte) : (s.lane b).program = s.program := rfl
@[simp] theorem State.lane_rdata (b : Nat → Byte) : (s.lane b).rdata = s.rdata := rfl
@[simp] theorem State.lane_draws (b : Nat → Byte) : (s.lane b).draws = s.draws := rfl

/-! ### `State.closeAndExtract` -/

@[simp] theorem State.closeAndExtract_cfg (b : Nat → Byte) (r : Nat) (w : Width) : (s.closeAndExtract b r w).cfg = s.cfg := rfl
@[simp] theorem State.closeAndExtract_h (b : Nat → Byte) (r : Nat) (w : Width) : (s.closeAndExtract b r w).h = (extract s.cfg s.sseed w (closeState s.cfg s.sseed b r s.h) s.dout).1 := rfl
@[simp] theorem State.closeAndExtract_sseed (b : Nat → Byte) (r : Nat) (w : Width) : (s.closeAndExtract b r w).sseed = s.sseed := rfl
@[simp] theorem State.closeAndExtract_inner (b : Nat → Byte) (r : Nat) (w : Width) : (s.closeAndExtract b r w).inner = s.inner := rfl
@[simp] theorem State.closeAndExtract_lbuf (b : Nat → Byte) (r : Nat) (w : Width) : (s.closeAndExtract b r w).lbuf = s.lbuf := rfl
@[simp] theorem State.closeAndExtract_lfill (b : Nat → Byte) (r : Nat) (w : Width) : (s.closeAndExtract b r w).lfill = s.lfill := rfl
@[simp] theorem State.closeAndExtract_count (b : Nat → Byte) (r : Nat) (w : Width) : (s.closeAndExtract b r w).count = s.count := rfl
@[simp] theorem State.closeAndExtract_width (b : Nat → Byte) (r : Nat) (w : Width) : (s.closeAndExtract b r w).width = s.width := rfl
@[simp] theorem State.closeAndExtract_phase (b : Nat → Byte) (r : Nat) (w : Width) : (s.closeAndExtract b r w).phase = s.phase := rfl
@[simp] theorem State.closeAndExtract_ovr (b : Nat → Byte) (r : Nat) (w : Width) : (s.closeAndExtract b r w).ovr = s.ovr := rfl
@[simp] theorem State.closeAndExtract_err (b : Nat → Byte) (r : Nat) (w : Width) : (s.closeAndExtract b r w).err = s.err := rfl
@[simp] theorem State.closeAndExtract_dout (b : Nat → Byte) (r : Nat) (w : Width) : (s.closeAndExtract b r w).dout = (extract s.cfg s.sseed w (closeState s.cfg s.sseed b r s.h) s.dout).2 := rfl
@[simp] theorem State.closeAndExtract_seed (b : Nat → Byte) (r : Nat) (w : Width) : (s.closeAndExtract b r w).seed = s.seed := rfl
@[simp] theorem State.closeAndExtract_length (b : Nat → Byte) (r : Nat) (w : Width) : (s.closeAndExtract b r w).length = s.length := rfl
@[simp] theorem State.closeAndExtract_srcAddr (b : Nat → Byte) (r : Nat) (w : Width) : (s.closeAndExtract b r w).srcAddr = s.srcAddr := rfl
@[simp] theorem State.closeAndExtract_din0 (b : Nat → Byte) (r : Nat) (w : Width) : (s.closeAndExtract b r w).din0 = s.din0 := rfl
@[simp] theorem State.closeAndExtract_din1 (b : Nat → Byte) (r : Nat) (w : Width) : (s.closeAndExtract b r w).din1 = s.din1 := rfl
@[simp] theorem State.closeAndExtract_running (b : Nat → Byte) (r : Nat) (w : Width) : (s.closeAndExtract b r w).running = s.running := rfl
@[simp] theorem State.closeAndExtract_mem (b : Nat → Byte) (r : Nat) (w : Width) : (s.closeAndExtract b r w).mem = s.mem := rfl
@[simp] theorem State.closeAndExtract_staged (b : Nat → Byte) (r : Nat) (w : Width) : (s.closeAndExtract b r w).staged = s.staged := rfl
@[simp] theorem State.closeAndExtract_regions (b : Nat → Byte) (r : Nat) (w : Width) : (s.closeAndExtract b r w).regions = s.regions := rfl
@[simp] theorem State.closeAndExtract_events (b : Nat → Byte) (r : Nat) (w : Width) : (s.closeAndExtract b r w).events = s.events := rfl
@[simp] theorem State.closeAndExtract_program (b : Nat → Byte) (r : Nat) (w : Width) : (s.closeAndExtract b r w).program = s.program := rfl
@[simp] theorem State.closeAndExtract_rdata (b : Nat → Byte) (r : Nat) (w : Width) : (s.closeAndExtract b r w).rdata = s.rdata := rfl
@[simp] theorem State.closeAndExtract_draws (b : Nat → Byte) (r : Nat) (w : Width) : (s.closeAndExtract b r w).draws = s.draws := rfl

/-! ### `State.issue` -/

@[simp] theorem State.issue_cfg (cw : Word) : (s.issue cw).cfg = s.cfg := rfl
@[simp] theorem State.issue_h (cw : Word) : (s.issue cw).h = s.h := rfl
@[simp] theorem State.issue_sseed (cw : Word) : (s.issue cw).sseed = s.sseed := rfl
@[simp] theorem State.issue_inner (cw : Word) : (s.issue cw).inner = s.inner := rfl
@[simp] theorem State.issue_lbuf (cw : Word) : (s.issue cw).lbuf = s.lbuf := rfl
@[simp] theorem State.issue_lfill (cw : Word) : (s.issue cw).lfill = s.lfill := rfl
@[simp] theorem State.issue_count (cw : Word) : (s.issue cw).count = s.count := rfl
@[simp] theorem State.issue_width (cw : Word) : (s.issue cw).width = s.width := rfl
@[simp] theorem State.issue_phase (cw : Word) : (s.issue cw).phase = s.phase := rfl
@[simp] theorem State.issue_ovr (cw : Word) : (s.issue cw).ovr = s.ovr := rfl
@[simp] theorem State.issue_err (cw : Word) : (s.issue cw).err = s.err := rfl
@[simp] theorem State.issue_dout (cw : Word) : (s.issue cw).dout = s.dout := rfl
@[simp] theorem State.issue_seed (cw : Word) : (s.issue cw).seed = s.seed := rfl
@[simp] theorem State.issue_length (cw : Word) : (s.issue cw).length = s.length := rfl
@[simp] theorem State.issue_srcAddr (cw : Word) : (s.issue cw).srcAddr = s.srcAddr := rfl
@[simp] theorem State.issue_din0 (cw : Word) : (s.issue cw).din0 = s.din0 := rfl
@[simp] theorem State.issue_din1 (cw : Word) : (s.issue cw).din1 = s.din1 := rfl
@[simp] theorem State.issue_running (cw : Word) : (s.issue cw).running = some (s.latch cw) := rfl
@[simp] theorem State.issue_mem (cw : Word) : (s.issue cw).mem = s.mem := rfl
@[simp] theorem State.issue_staged (cw : Word) : (s.issue cw).staged = s.staged := rfl
@[simp] theorem State.issue_regions (cw : Word) : (s.issue cw).regions = s.regions := rfl
@[simp] theorem State.issue_events (cw : Word) : (s.issue cw).events = s.events := rfl
@[simp] theorem State.issue_program (cw : Word) : (s.issue cw).program = s.program := rfl
@[simp] theorem State.issue_rdata (cw : Word) : (s.issue cw).rdata = s.rdata := rfl
@[simp] theorem State.issue_draws (cw : Word) : (s.issue cw).draws = s.draws := rfl

/-! ### `State.setOverrun` -/

@[simp] theorem State.setOverrun_cfg : (s.setOverrun).cfg = s.cfg := rfl
@[simp] theorem State.setOverrun_h : (s.setOverrun).h = s.h := rfl
@[simp] theorem State.setOverrun_sseed : (s.setOverrun).sseed = s.sseed := rfl
@[simp] theorem State.setOverrun_inner : (s.setOverrun).inner = s.inner := rfl
@[simp] theorem State.setOverrun_lbuf : (s.setOverrun).lbuf = s.lbuf := rfl
@[simp] theorem State.setOverrun_lfill : (s.setOverrun).lfill = s.lfill := rfl
@[simp] theorem State.setOverrun_count : (s.setOverrun).count = s.count := rfl
@[simp] theorem State.setOverrun_width : (s.setOverrun).width = s.width := rfl
@[simp] theorem State.setOverrun_phase : (s.setOverrun).phase = s.phase := rfl
@[simp] theorem State.setOverrun_ovr : (s.setOverrun).ovr = true := rfl
@[simp] theorem State.setOverrun_err : (s.setOverrun).err = s.err := rfl
@[simp] theorem State.setOverrun_dout : (s.setOverrun).dout = s.dout := rfl
@[simp] theorem State.setOverrun_seed : (s.setOverrun).seed = s.seed := rfl
@[simp] theorem State.setOverrun_length : (s.setOverrun).length = s.length := rfl
@[simp] theorem State.setOverrun_srcAddr : (s.setOverrun).srcAddr = s.srcAddr := rfl
@[simp] theorem State.setOverrun_din0 : (s.setOverrun).din0 = s.din0 := rfl
@[simp] theorem State.setOverrun_din1 : (s.setOverrun).din1 = s.din1 := rfl
@[simp] theorem State.setOverrun_running : (s.setOverrun).running = s.running := rfl
@[simp] theorem State.setOverrun_mem : (s.setOverrun).mem = s.mem := rfl
@[simp] theorem State.setOverrun_staged : (s.setOverrun).staged = s.staged := rfl
@[simp] theorem State.setOverrun_regions : (s.setOverrun).regions = s.regions := rfl
@[simp] theorem State.setOverrun_events : (s.setOverrun).events = s.events := rfl
@[simp] theorem State.setOverrun_program : (s.setOverrun).program = s.program := rfl
@[simp] theorem State.setOverrun_rdata : (s.setOverrun).rdata = s.rdata := rfl
@[simp] theorem State.setOverrun_draws : (s.setOverrun).draws = s.draws := rfl

/-! ### `State.clearCore` -/

@[simp] theorem State.clearCore_cfg : (s.clearCore).cfg = s.cfg := rfl
@[simp] theorem State.clearCore_h : (s.clearCore).h = Quad.zero := rfl
@[simp] theorem State.clearCore_sseed : (s.clearCore).sseed = 0 := rfl
@[simp] theorem State.clearCore_inner : (s.clearCore).inner = false := rfl
@[simp] theorem State.clearCore_lbuf : (s.clearCore).lbuf = Vector.replicate 16 0 := rfl
@[simp] theorem State.clearCore_lfill : (s.clearCore).lfill = 0 := rfl
@[simp] theorem State.clearCore_count : (s.clearCore).count = 0 := rfl
@[simp] theorem State.clearCore_width : (s.clearCore).width = .w64 := rfl
@[simp] theorem State.clearCore_phase : (s.clearCore).phase = .idle := rfl
@[simp] theorem State.clearCore_ovr : (s.clearCore).ovr = false := rfl
@[simp] theorem State.clearCore_err : (s.clearCore).err = s.err := rfl
@[simp] theorem State.clearCore_dout : (s.clearCore).dout = Quad.zero := rfl
@[simp] theorem State.clearCore_seed : (s.clearCore).seed = s.seed := rfl
@[simp] theorem State.clearCore_length : (s.clearCore).length = s.length := rfl
@[simp] theorem State.clearCore_srcAddr : (s.clearCore).srcAddr = s.srcAddr := rfl
@[simp] theorem State.clearCore_din0 : (s.clearCore).din0 = s.din0 := rfl
@[simp] theorem State.clearCore_din1 : (s.clearCore).din1 = s.din1 := rfl
@[simp] theorem State.clearCore_running : (s.clearCore).running = s.running := rfl
@[simp] theorem State.clearCore_mem : (s.clearCore).mem = s.mem := rfl
@[simp] theorem State.clearCore_staged : (s.clearCore).staged = s.staged := rfl
@[simp] theorem State.clearCore_regions : (s.clearCore).regions = s.regions := rfl
@[simp] theorem State.clearCore_events : (s.clearCore).events = s.events := rfl
@[simp] theorem State.clearCore_program : (s.clearCore).program = s.program := rfl
@[simp] theorem State.clearCore_rdata : (s.clearCore).rdata = s.rdata := rfl
@[simp] theorem State.clearCore_draws : (s.clearCore).draws = s.draws := rfl

/-! ### `State.openSession` -/

@[simp] theorem State.openSession_cfg (w : Width) (a b : Word) : (s.openSession w a b).cfg = s.cfg := rfl
@[simp] theorem State.openSession_h (w : Width) (a b : Word) : (s.openSession w a b).h = initState a b := rfl
@[simp] theorem State.openSession_sseed (w : Width) (a b : Word) : (s.openSession w a b).sseed = a := rfl
@[simp] theorem State.openSession_inner (w : Width) (a b : Word) : (s.openSession w a b).inner = false := rfl
@[simp] theorem State.openSession_lbuf (w : Width) (a b : Word) : (s.openSession w a b).lbuf = Vector.replicate 16 0 := rfl
@[simp] theorem State.openSession_lfill (w : Width) (a b : Word) : (s.openSession w a b).lfill = 0 := rfl
@[simp] theorem State.openSession_count (w : Width) (a b : Word) : (s.openSession w a b).count = 0 := rfl
@[simp] theorem State.openSession_width (w : Width) (a b : Word) : (s.openSession w a b).width = w := rfl
@[simp] theorem State.openSession_phase (w : Width) (a b : Word) : (s.openSession w a b).phase = .opened := rfl
@[simp] theorem State.openSession_ovr (w : Width) (a b : Word) : (s.openSession w a b).ovr = s.ovr := rfl
@[simp] theorem State.openSession_err (w : Width) (a b : Word) : (s.openSession w a b).err = s.err := rfl
@[simp] theorem State.openSession_dout (w : Width) (a b : Word) : (s.openSession w a b).dout = Quad.zero := rfl
@[simp] theorem State.openSession_seed (w : Width) (a b : Word) : (s.openSession w a b).seed = s.seed := rfl
@[simp] theorem State.openSession_length (w : Width) (a b : Word) : (s.openSession w a b).length = s.length := rfl
@[simp] theorem State.openSession_srcAddr (w : Width) (a b : Word) : (s.openSession w a b).srcAddr = s.srcAddr := rfl
@[simp] theorem State.openSession_din0 (w : Width) (a b : Word) : (s.openSession w a b).din0 = s.din0 := rfl
@[simp] theorem State.openSession_din1 (w : Width) (a b : Word) : (s.openSession w a b).din1 = s.din1 := rfl
@[simp] theorem State.openSession_running (w : Width) (a b : Word) : (s.openSession w a b).running = s.running := rfl
@[simp] theorem State.openSession_mem (w : Width) (a b : Word) : (s.openSession w a b).mem = s.mem := rfl
@[simp] theorem State.openSession_staged (w : Width) (a b : Word) : (s.openSession w a b).staged = s.staged := rfl
@[simp] theorem State.openSession_regions (w : Width) (a b : Word) : (s.openSession w a b).regions = s.regions := rfl
@[simp] theorem State.openSession_events (w : Width) (a b : Word) : (s.openSession w a b).events = s.events := rfl
@[simp] theorem State.openSession_program (w : Width) (a b : Word) : (s.openSession w a b).program = s.program := rfl
@[simp] theorem State.openSession_rdata (w : Width) (a b : Word) : (s.openSession w a b).rdata = s.rdata := rfl
@[simp] theorem State.openSession_draws (w : Width) (a b : Word) : (s.openSession w a b).draws = s.draws := rfl

/-! ### `State.fenceStores` -/

@[simp] theorem State.fenceStores_cfg : (s.fenceStores).cfg = s.cfg := rfl
@[simp] theorem State.fenceStores_h : (s.fenceStores).h = s.h := rfl
@[simp] theorem State.fenceStores_sseed : (s.fenceStores).sseed = s.sseed := rfl
@[simp] theorem State.fenceStores_inner : (s.fenceStores).inner = s.inner := rfl
@[simp] theorem State.fenceStores_lbuf : (s.fenceStores).lbuf = s.lbuf := rfl
@[simp] theorem State.fenceStores_lfill : (s.fenceStores).lfill = s.lfill := rfl
@[simp] theorem State.fenceStores_count : (s.fenceStores).count = s.count := rfl
@[simp] theorem State.fenceStores_width : (s.fenceStores).width = s.width := rfl
@[simp] theorem State.fenceStores_phase : (s.fenceStores).phase = s.phase := rfl
@[simp] theorem State.fenceStores_ovr : (s.fenceStores).ovr = s.ovr := rfl
@[simp] theorem State.fenceStores_err : (s.fenceStores).err = s.err := rfl
@[simp] theorem State.fenceStores_dout : (s.fenceStores).dout = s.dout := rfl
@[simp] theorem State.fenceStores_seed : (s.fenceStores).seed = s.seed := rfl
@[simp] theorem State.fenceStores_length : (s.fenceStores).length = s.length := rfl
@[simp] theorem State.fenceStores_srcAddr : (s.fenceStores).srcAddr = s.srcAddr := rfl
@[simp] theorem State.fenceStores_din0 : (s.fenceStores).din0 = s.din0 := rfl
@[simp] theorem State.fenceStores_din1 : (s.fenceStores).din1 = s.din1 := rfl
@[simp] theorem State.fenceStores_running : (s.fenceStores).running = s.running := rfl
@[simp] theorem State.fenceStores_mem : (s.fenceStores).mem = s.staged.foldl (fun m c => Memory.store m c.1 c.2) s.mem := rfl
@[simp] theorem State.fenceStores_staged : (s.fenceStores).staged = [] := rfl
@[simp] theorem State.fenceStores_regions : (s.fenceStores).regions = s.regions := rfl
@[simp] theorem State.fenceStores_events : (s.fenceStores).events = s.events := rfl
@[simp] theorem State.fenceStores_program : (s.fenceStores).program = s.program := rfl
@[simp] theorem State.fenceStores_rdata : (s.fenceStores).rdata = s.rdata := rfl
@[simp] theorem State.fenceStores_draws : (s.fenceStores).draws = s.draws := rfl

/-! ### `State.setRegions` -/

@[simp] theorem State.setRegions_cfg (rs : List Region) : (s.setRegions rs).cfg = s.cfg := rfl
@[simp] theorem State.setRegions_h (rs : List Region) : (s.setRegions rs).h = s.h := rfl
@[simp] theorem State.setRegions_sseed (rs : List Region) : (s.setRegions rs).sseed = s.sseed := rfl
@[simp] theorem State.setRegions_inner (rs : List Region) : (s.setRegions rs).inner = s.inner := rfl
@[simp] theorem State.setRegions_lbuf (rs : List Region) : (s.setRegions rs).lbuf = s.lbuf := rfl
@[simp] theorem State.setRegions_lfill (rs : List Region) : (s.setRegions rs).lfill = s.lfill := rfl
@[simp] theorem State.setRegions_count (rs : List Region) : (s.setRegions rs).count = s.count := rfl
@[simp] theorem State.setRegions_width (rs : List Region) : (s.setRegions rs).width = s.width := rfl
@[simp] theorem State.setRegions_phase (rs : List Region) : (s.setRegions rs).phase = s.phase := rfl
@[simp] theorem State.setRegions_ovr (rs : List Region) : (s.setRegions rs).ovr = s.ovr := rfl
@[simp] theorem State.setRegions_err (rs : List Region) : (s.setRegions rs).err = s.err := rfl
@[simp] theorem State.setRegions_dout (rs : List Region) : (s.setRegions rs).dout = s.dout := rfl
@[simp] theorem State.setRegions_seed (rs : List Region) : (s.setRegions rs).seed = s.seed := rfl
@[simp] theorem State.setRegions_length (rs : List Region) : (s.setRegions rs).length = s.length := rfl
@[simp] theorem State.setRegions_srcAddr (rs : List Region) : (s.setRegions rs).srcAddr = s.srcAddr := rfl
@[simp] theorem State.setRegions_din0 (rs : List Region) : (s.setRegions rs).din0 = s.din0 := rfl
@[simp] theorem State.setRegions_din1 (rs : List Region) : (s.setRegions rs).din1 = s.din1 := rfl
@[simp] theorem State.setRegions_running (rs : List Region) : (s.setRegions rs).running = s.running.map (fun l => l.mark [] rs) := rfl
@[simp] theorem State.setRegions_mem (rs : List Region) : (s.setRegions rs).mem = s.mem := rfl
@[simp] theorem State.setRegions_staged (rs : List Region) : (s.setRegions rs).staged = s.staged := rfl
@[simp] theorem State.setRegions_regions (rs : List Region) : (s.setRegions rs).regions = rs := rfl
@[simp] theorem State.setRegions_events (rs : List Region) : (s.setRegions rs).events = s.events := rfl
@[simp] theorem State.setRegions_program (rs : List Region) : (s.setRegions rs).program = s.program := rfl
@[simp] theorem State.setRegions_rdata (rs : List Region) : (s.setRegions rs).rdata = s.rdata := rfl
@[simp] theorem State.setRegions_draws (rs : List Region) : (s.setRegions rs).draws = s.draws := rfl

/-! ### `State.assertReset` -/

@[simp] theorem State.assertReset_cfg : (s.assertReset).cfg = s.cfg := rfl
@[simp] theorem State.assertReset_h : (s.assertReset).h = State.reset.h := rfl
@[simp] theorem State.assertReset_sseed : (s.assertReset).sseed = State.reset.sseed := rfl
@[simp] theorem State.assertReset_inner : (s.assertReset).inner = State.reset.inner := rfl
@[simp] theorem State.assertReset_lbuf : (s.assertReset).lbuf = State.reset.lbuf := rfl
@[simp] theorem State.assertReset_lfill : (s.assertReset).lfill = State.reset.lfill := rfl
@[simp] theorem State.assertReset_count : (s.assertReset).count = State.reset.count := rfl
@[simp] theorem State.assertReset_width : (s.assertReset).width = State.reset.width := rfl
@[simp] theorem State.assertReset_phase : (s.assertReset).phase = State.reset.phase := rfl
@[simp] theorem State.assertReset_ovr : (s.assertReset).ovr = State.reset.ovr := rfl
@[simp] theorem State.assertReset_err : (s.assertReset).err = State.reset.err := rfl
@[simp] theorem State.assertReset_dout : (s.assertReset).dout = State.reset.dout := rfl
@[simp] theorem State.assertReset_seed : (s.assertReset).seed = State.reset.seed := rfl
@[simp] theorem State.assertReset_length : (s.assertReset).length = State.reset.length := rfl
@[simp] theorem State.assertReset_srcAddr : (s.assertReset).srcAddr = State.reset.srcAddr := rfl
@[simp] theorem State.assertReset_din0 : (s.assertReset).din0 = State.reset.din0 := rfl
@[simp] theorem State.assertReset_din1 : (s.assertReset).din1 = State.reset.din1 := rfl
@[simp] theorem State.assertReset_running : (s.assertReset).running = State.reset.running := rfl
@[simp] theorem State.assertReset_mem : (s.assertReset).mem = s.mem := rfl
@[simp] theorem State.assertReset_staged : (s.assertReset).staged = s.staged := rfl
@[simp] theorem State.assertReset_regions : (s.assertReset).regions = s.regions := rfl
@[simp] theorem State.assertReset_events : (s.assertReset).events = s.events := rfl
@[simp] theorem State.assertReset_program : (s.assertReset).program = s.program := rfl
@[simp] theorem State.assertReset_rdata : (s.assertReset).rdata = s.rdata := rfl
@[simp] theorem State.assertReset_draws : (s.assertReset).draws = s.draws := rfl

/-! ### Byte reads -/

@[simp] theorem State.lane_portByte (b : Nat → Byte) (a : Nat) : (s.lane b).portByte a = s.portByte a := rfl
@[simp] theorem State.lane_memRead (b : Nat → Byte) (a : Nat) : (s.lane b).memRead a = s.memRead a := rfl

end Sys2Proof.Machine
end

