-- ==== Sys2Proof/Laws/Ops.lean ====
section
/-! SUPPORT. One lemma for each shared operation that says what it can do: byte packing, the lane scheduler, the lane scan, tail
buffers, and the three ways a command completes. -/

namespace Sys2Proof.Machine

/-! ### Byte packing -/

theorem packBytes_congr {b b' : Nat → Byte} {n : Nat} (h : ∀ k < n, b k = b' k) : packBytes b n = packBytes b' n := by
  induction n with
  | zero => rfl
  | succ n ih => simp only [packBytes, ih fun k hk => h k (by omega), h n (by omega)]

theorem rd64_congr {e : Endian} {b b' : Nat → Byte} (h : ∀ k < 8, b k = b' k) : rd64 e b = rd64 e b' := by
  cases e
  · exact packBytes_congr h
  · exact packBytes_congr fun k _ => h (7 - k) (by omega)

/-- A lane reads the bytes 0 to 15 and no other (41_absorption.md R121). -/
theorem laneState_congr {c : Config} {sd : Word} {inner : Bool} {b b' : Nat → Byte} {h : Quad}
    (hb : ∀ k < 16, b k = b' k) : laneState c sd inner b h = laneState c sd inner b' h := by
  have h0 : rd64 c.endian b = rd64 c.endian b' := rd64_congr fun k hk => hb k (by omega)
  have h1 : rd64 c.endian (fun k => b (8 + k)) = rd64 c.endian (fun k => b' (8 + k)) :=
    rd64_congr fun k hk => hb (8 + k) (by omega)
  simp only [laneState, h0, h1]

/-- The lanes of a message read its first `16 * m` bytes and no other. -/
theorem laneRun_congr {c : Config} {sd : Word} {b b' : Nat → Byte} {m : Nat} {h : Quad}
    (hb : ∀ k < 16 * m, b k = b' k) : laneRun c sd b m h = laneRun c sd b' m h := by
  induction m with
  | zero => rfl
  | succ m ih =>
    simp only [laneRun, ih fun k hk => hb k (by omega)]
    exact laneState_congr fun k hk => hb (16 * m + k) (by omega)

/-- Tail absorption reads the bytes below `r` and no other (42_finalization.md R141). -/
theorem tailAbsorb_congr {t : TailOps} {b b' : Nat → Byte} {r : Nat} {h : Quad} (hb : ∀ k < r, b k = b' k) :
    tailAbsorb t b r h = tailAbsorb t b' r h := by
  induction r generalizing h with
  | zero => rfl
  | succ r ih => simp only [tailAbsorb, hb r (by omega), ih fun k hk => hb k (by omega)]

theorem closeState_congr {c : Config} {sd : Word} {b b' : Nat → Byte} {r : Nat} {h : Quad} (hb : ∀ k < r, b k = b' k) :
    closeState c sd b r h = closeState c sd b' r h := by
  simp only [closeState, tailAbsorb_congr hb]

/-! ### The lane scheduler -/

/-- A byte through the scheduler changes `H`, `INNER`, `LBUF`, `LFILL` and nothing else (41_absorption.md R123). -/
theorem State.pushByte_changes (s : State) (d : Byte) :
    ∃ h i b f, s.pushByte d = { s with h := h, inner := i, lbuf := b, lfill := f } := by
  unfold State.pushByte
  dsimp only
  split
  · exact ⟨_, _, _, _, rfl⟩
  · exact ⟨s.h, s.inner, _, _, rfl⟩

theorem State.pushBytes_changes (s : State) (d : Nat → Byte) (n : Nat) :
    ∃ h i b f, s.pushBytes d n = { s with h := h, inner := i, lbuf := b, lfill := f } := by
  induction n with
  | zero => exact ⟨s.h, s.inner, s.lbuf, s.lfill, rfl⟩
  | succ n ih =>
    obtain ⟨h, i, b, f, e⟩ := ih
    obtain ⟨h', i', b', f', e'⟩ := State.pushByte_changes (s.pushBytes d n) (d n)
    exact ⟨h', i', b', f', by rw [State.pushBytes, e', e]⟩

theorem State.pushBytes_frame (s : State) (d : Nat → Byte) (n : Nat) :
    s.pushBytes d n =
      { s with
        h := (s.pushBytes d n).h, inner := (s.pushBytes d n).inner,
        lbuf := (s.pushBytes d n).lbuf, lfill := (s.pushBytes d n).lfill } := by
  obtain ⟨h, i, b, f, e⟩ := State.pushBytes_changes s d n
  rw [e]

theorem State.push_frame (s : State) (d : Nat → Byte) (n : Nat) :
    s.push d n =
      { s with
        h := (s.pushBytes d n).h, inner := (s.pushBytes d n).inner,
        lbuf := (s.pushBytes d n).lbuf, lfill := (s.pushBytes d n).lfill,
        count := s.count + BitVec.ofNat 64 n } := by
  unfold State.push
  rw [State.pushBytes_frame]

/-- The first `m` lanes of a byte string, from an alternator that stands at `p` (41_absorption.md R121). -/
def lanesFrom (c : Config) (seed : Word) (p : Bool) (b : Nat → Byte) : Nat → Quad → Quad
  | 0, h => h
  | k + 1, h => laneState c seed (p ^^ decide (k % 2 = 1)) (fun j => b (16 * k + j)) (lanesFrom c seed p b k h)

theorem lanesFrom_even (c : Config) (seed : Word) (b : Nat → Byte) (m : Nat) (h : Quad) :
    lanesFrom c seed false b m h = laneRun c seed b m h := by
  induction m with
  | zero => rfl
  | succ m ih => simp only [lanesFrom, laneRun, Bool.false_xor, ih]

/-- The bytes `D[0..T-1]` have been absorbed since the hash state was `h0` and the alternator `p` (41_absorption.md R125): every
full lane is in `H`, the rest is in `LBUF`. -/
structure State.Absorbed (p : Bool) (h0 : Quad) (D : Nat → Byte) (T : Nat) (s : State) : Prop where
  hash : s.h = lanesFrom s.cfg s.sseed p D (T / 16) h0
  parity : s.inner = (p ^^ decide (T / 16 % 2 = 1))
  fill : s.lfill.val = T % 16
  rest : ∀ k < T % 16, s.lbufByte k = D (16 * (T / 16) + k)

/-- The byte at index `k` after a byte is stored at index `i`. -/
theorem lbufByte_set (v : Vector Byte 16) (i k : Nat) (hi : i < 16) (d : Byte) :
    (v.set i d)[k]?.getD 0 = if k = i then d else v[k]?.getD 0 := by
  rw [Vector.getElem?_set]
  by_cases h : i = k
  · subst h; simp
  · simp [h, Ne.symm h]

/-- One byte of the message goes through the scheduler (41_absorption.md R123). -/
theorem State.pushByte_absorbed {p : Bool} {h0 : Quad} {D : Nat → Byte} {T : Nat} {s : State} (h : s.Absorbed p h0 D T) :
    (s.pushByte (D T)).Absorbed p h0 D (T + 1) := by
  have hf := h.fill
  by_cases h15 : s.lfill.val = 15
  · have hq : (T + 1) / 16 = T / 16 + 1 := by omega
    have hr : (T + 1) % 16 = 0 := by omega
    have e : s.pushByte (D T) = { ({ s with lbuf := s.lbuf.set s.lfill.val (D T) } : State).lane
        ({ s with lbuf := s.lbuf.set s.lfill.val (D T) } : State).lbufByte with lfill := 0 } := by
      unfold State.pushByte
      dsimp only
      rw [if_pos h15]
    rw [e]
    refine ⟨?_, ?_, ?_, ?_⟩
    · show laneState s.cfg s.sseed s.inner _ s.h = _
      rw [hq, lanesFrom, h.hash, h.parity]
      refine laneState_congr fun k hk => ?_
      show (s.lbuf.set s.lfill.val (D T))[k]?.getD 0 = _
      rw [lbufByte_set _ _ _ s.lfill.isLt]
      split
      · next e => rw [e, show 16 * (T / 16) + s.lfill.val = T by omega]
      · next e => exact h.rest k (by omega)
    · show (!s.inner) = _
      rw [hq, h.parity, ← Bool.xor_not]
      congr 1
      by_cases hp : T / 16 % 2 = 1
      · simp [hp, show (T / 16 + 1) % 2 = 0 by omega]
      · simp [show T / 16 % 2 = 0 by omega, show (T / 16 + 1) % 2 = 1 by omega]
    · exact hr.symm
    · intro k hk; omega
  · have hlt := s.lfill.isLt
    have hq : (T + 1) / 16 = T / 16 := by omega
    have hr : (T + 1) % 16 = T % 16 + 1 := by omega
    have e : s.pushByte (D T) = { s with lbuf := s.lbuf.set s.lfill.val (D T), lfill := s.lfill + 1 } := by
      unfold State.pushByte
      dsimp only
      rw [if_neg h15]
    rw [e]
    refine ⟨?_, ?_, ?_, ?_⟩
    · rw [hq]; exact h.hash
    · rw [hq]; exact h.parity
    · show (s.lfill + 1 : Fin 16).val = _
      rw [Fin.val_add, hr]
      show (s.lfill.val + 1) % 16 = _
      omega
    · intro k hk
      rw [hq]
      show (s.lbuf.set s.lfill.val (D T))[k]?.getD 0 = _
      rw [lbufByte_set _ _ _ s.lfill.isLt]
      split
      · next e => rw [e, show 16 * (T / 16) + s.lfill.val = T by omega]
      · next e => exact h.rest k (by omega)

theorem State.pushBytes_absorbed {p : Bool} {h0 : Quad} {D d : Nat → Byte} {T n : Nat} {s : State} (h : s.Absorbed p h0 D T)
    (hd : ∀ k < n, d k = D (T + k)) : (s.pushBytes d n).Absorbed p h0 D (T + n) := by
  induction n with
  | zero => exact h
  | succ n ih =>
    show ((s.pushBytes d n).pushByte (d n)).Absorbed p h0 D (T + n + 1)
    rw [hd n (by omega)]
    exact State.pushByte_absorbed (ih fun k hk => hd k (by omega))

/-- Every state is one in which the bytes of `LBUF` have been absorbed since its own hash state and alternator. -/
theorem State.absorbed_self {D : Nat → Byte} (s : State) (hD : ∀ k < s.lfill.val, D k = s.lbufByte k) :
    s.Absorbed s.inner s.h D s.lfill.val where
  hash := by rw [Nat.div_eq_of_lt s.lfill.isLt]; rfl
  parity := by rw [Nat.div_eq_of_lt s.lfill.isLt]; simp
  fill := (Nat.mod_eq_of_lt s.lfill.isLt).symm
  rest k hk := by
    rw [Nat.mod_eq_of_lt s.lfill.isLt] at hk
    rw [Nat.div_eq_of_lt s.lfill.isLt, Nat.mul_zero, Nat.zero_add, hD k hk]

/-! ### The one-shot scan -/

/-- The scan absorbs the lanes of the bytes at `A`, from `INNER = 0` (41_absorption.md R122, R127). -/
theorem State.scanLanes_eq (s : State) (A m : Nat) (hi : s.inner = false) :
    s.scanLanes A m =
      { s with h := laneRun s.cfg s.sseed (s.memRead A) m s.h, inner := decide (m % 2 = 1) } := by
  induction m with
  | zero => cases s; cases hi; rfl
  | succ m ih =>
    have hb : (fun j => s.memRead A (16 * m + j)) = s.memRead (A + 16 * m) := by
      funext j
      simp only [State.memRead, Nat.add_assoc]
    have hp : (!decide (m % 2 = 1)) = decide ((m + 1) % 2 = 1) := by
      by_cases h : m % 2 = 1
      · simp [h, show (m + 1) % 2 = 0 by omega]
      · simp [show m % 2 = 0 by omega, show (m + 1) % 2 = 1 by omega]
    show (s.scanLanes A m).lane (s.memRead (A + 16 * m)) = _
    rw [ih]
    unfold State.lane
    dsimp only
    rw [hp, laneRun, hb]

theorem tailBuffer_byte (b : Nat → Byte) (r k : Nat) (hk : k < 16) :
    (tailBuffer b r)[k]?.getD 0 = if k < r then b k else 0 := by
  rw [tailBuffer, Vector.getElem?_eq_getElem hk, Vector.getElem_ofFn]
  rfl

/-! ### Completion -/

/-- An accepted command answers a next state, with `ERR = OK` and `BUSY = 0` (43_commands.md R161, R162). -/
theorem accept_next {b t : State} (h : accept b = .next t) : t = { b with err := .ok, running := none } := by
  injection h with h; exact h.symm

theorem reject_next {c : ResultCode} {s t : State} (h : reject c s = .next t) : t = { s with err := c, running := none } := by
  injection h with h; exact h.symm

theorem stall_next {cw : Word} {s t : State} (h : stall cw s = .next t) : t = { s with running := some (s.latched cw) } := by
  injection h with h; exact h.symm

@[simp] theorem State.latched_of_running {s : State} {l : Latched} (h : s.running = some l) (cw : Word) : s.latched cw = l := by
  simp [State.latched, h]

@[simp] theorem State.latched_of_idle {s : State} (h : s.running = none) (cw : Word) : s.latched cw = s.latch cw := by
  simp [State.latched, h]

/-! ### Rotation and byte packing -/

theorem rotr_eq_rotateRight (x : Word) {k : Nat} (hk : k < 64) : rotr x k = x.rotateRight k := by
  rw [BitVec.rotateRight_eq_rotateRightAux_of_lt hk]
  rfl

/-- Bit `i` of packed bytes is a bit of byte `i / 8` (00_scope.md R10). -/
theorem packBytes_getLsbD (b : Nat → Byte) {n : Nat} (hn : n ≤ 8) (i : Nat) :
    (packBytes b n).getLsbD i = (decide (i < 8 * n) && (b (i / 8)).getLsbD (i % 8)) := by
  induction n generalizing i with
  | zero => simp [packBytes]
  | succ n ih =>
    rw [packBytes, BitVec.add_eq_or_of_and_eq_zero]
    · simp only [BitVec.getLsbD_or, ih (by omega), BitVec.getLsbD_shiftLeft, BitVec.getLsbD_setWidth]
      by_cases h : i < 8 * n
      · simp [h, show i < 8 * (n + 1) by omega]
      · by_cases h' : i < 8 * (n + 1)
        · simp [h, h', show i < 64 by omega, show i / 8 = n by omega, show i - 8 * n = i % 8 by omega,
            show i % 8 < 64 by omega]
        · simp [h, h']
          intro _ _
          exact BitVec.getLsbD_of_ge _ _ (by omega)
    · apply BitVec.eq_of_getLsbD_eq
      intro i hi
      simp only [BitVec.getLsbD_and, ih (by omega), BitVec.getLsbD_shiftLeft]
      by_cases h : i < 8 * n <;> simp [h]

/-- Unpacking gives the packed bytes. -/
theorem byteOf_packBytes (b : Nat → Byte) {n k : Nat} (hn : n ≤ 8) (hk : k < n) : byteOf (packBytes b n) k = b k := by
  apply BitVec.eq_of_getLsbD_eq
  intro i hi
  rw [byteOf, BitVec.getLsbD_extractLsb', packBytes_getLsbD _ hn, show (8 * k + i) / 8 = k by omega,
    show (8 * k + i) % 8 = i by omega]
  simp [hi, show 8 * k + i < 8 * n by omega]

/-- Packing the bytes of a word gives the word. -/
theorem packBytes_byteOf (g : Word) : packBytes (byteOf g) 8 = g := by
  apply BitVec.eq_of_getLsbD_eq
  intro i hi
  rw [packBytes_getLsbD _ (Nat.le_refl 8), byteOf, BitVec.getLsbD_extractLsb', show 8 * (i / 8) + i % 8 = i by omega]
  simp [show i < 8 * 8 by omega, show i % 8 < 8 by omega]

@[simp] theorem Quad.get_set_same (x : Quad) (k : Fin 4) (v : Word) : (x.set k v).get k = v := by
  match k with
  | 0 | 1 | 2 | 3 => rfl

theorem Quad.get_set_other (x : Quad) {k k' : Fin 4} (v : Word) (h : k' ≠ k) : (x.set k v).get k' = x.get k' := by
  match k, k' with
  | 0, 1 | 0, 2 | 0, 3 | 1, 0 | 1, 2 | 1, 3 | 2, 0 | 2, 1 | 2, 3 | 3, 0 | 3, 1 | 3, 2 => rfl
  | 0, 0 | 1, 1 | 2, 2 | 3, 3 => exact absurd rfl h

/-! ### What `push` and `scan` do not depend on -/

/-- `push` reads only the bytes it is given. -/
theorem State.pushBytes_congr (s : State) {d d' : Nat → Byte} {n : Nat} (h : ∀ k < n, d k = d' k) :
    s.pushBytes d n = s.pushBytes d' n := by
  induction n with
  | zero => rfl
  | succ n ih => rw [State.pushBytes, State.pushBytes, ih fun k hk => h k (by omega), h n (by omega)]

/-- The loop of `push` neither reads nor writes the running command, `DIN0` and `DIN1`: other values there stay beside the same
result (41_absorption.md R123). -/
theorem State.pushBytes_of_operands (s : State) (r : Option Latched) (d0 d1 : Word) (d : Nat → Byte) (n : Nat) :
    ({ s with running := r, din0 := d0, din1 := d1 } : State).pushBytes d n =
      { s.pushBytes d n with running := r, din0 := d0, din1 := d1 } := by
  induction n with
  | zero => rfl
  | succ n ih =>
    rw [State.pushBytes, State.pushBytes, ih]
    simp only [State.pushByte]
    split <;> rfl

/-- `push` from any state (41_absorption.md R123): the bytes of `LBUF` come first, the data follow. -/
theorem State.pushBytes_absorbs (s : State) (d : Nat → Byte) (n : Nat) :
    (s.pushBytes d n).Absorbed s.inner s.h
      (fun k => if k < s.lfill.val then s.lbufByte k else d (k - s.lfill.val)) (s.lfill.val + n) := by
  refine State.pushBytes_absorbed (s.absorbed_self fun k hk => ?_) fun k _ => ?_
  · simp [hk]
  · simp

/-! ### The host's duties on the buffer (20_memory.md R66) -/

theorem Region.touches_iff (r : Region) (A L : Nat) :
    r.touches A L = true ↔ ∃ a, r.base ≤ a ∧ a < r.base + r.size ∧ A ≤ a ∧ a < A + L := by
  simp only [Region.touches, Bool.and_eq_true, decide_eq_true_eq]
  constructor
  · rintro ⟨⟨⟨_, _⟩, _⟩, _⟩
    exact ⟨max A r.base, by omega⟩
  · rintro ⟨a, _⟩
    omega

theorem Latched.covers_iff {l : Latched} {a : Nat} :
    l.covers a = true ↔ l.srcAddr.toNat ≤ a ∧ a < l.srcAddr.toNat + l.length.toNat := by
  simp [Latched.covers]

@[simp] theorem Latched.mark_covers (l : Latched) (cells : List Host.Cell) (rs : List Region) (a : Nat) :
    (l.mark cells rs).covers a = l.covers a := rfl

theorem Latched.mem_heldAt {l : Latched} {a : Nat} {v : Byte} :
    v ∈ l.heldAt a ↔ l.covers a = true ∧ (a, v) ∈ l.held := by
  simp only [Latched.heldAt, List.mem_map, List.mem_filter, Bool.and_eq_true, beq_iff_eq]
  constructor
  · rintro ⟨⟨b, w⟩, ⟨h, hc, rfl⟩, rfl⟩
    exact ⟨hc, h⟩
  · rintro ⟨hc, h⟩
    exact ⟨_, ⟨h, hc, rfl⟩, rfl⟩

/-- A mark adds the values listed for the bytes of the buffer, and no others. -/
theorem Latched.mem_heldAt_mark {l : Latched} {cells : List Host.Cell} {rs : List Region} {a : Nat} {v : Byte} :
    v ∈ (l.mark cells rs).heldAt a ↔ v ∈ l.heldAt a ∨ (l.covers a = true ∧ (a, v) ∈ cells) := by
  simp only [Latched.mem_heldAt, Latched.mark, List.mem_append, List.mem_filter]
  tauto

/-- A mark adds the bytes of the buffer that lie in a region with side effects, and no others. -/
theorem Latched.unstableAt_mark {l : Latched} {cells : List Host.Cell} {rs : List Region} {a : Nat} :
    (l.mark cells rs).unstableAt a = true ↔ l.unstableAt a = true ∨ (l.covers a = true ∧ sideEffectAt rs a) := by
  simp only [Latched.unstableAt, Latched.mark, Bool.and_eq_true, List.any_append, Bool.or_eq_true,
    List.any_eq_true, List.mem_filter, decide_eq_true_eq, sideEffectAt, Region.touches_iff]
  constructor
  · rintro ⟨hc, ⟨r, hr, hb⟩ | ⟨r, ⟨hr, hk, -⟩, hb⟩⟩
    · exact .inl ⟨hc, r, hr, hb⟩
    · exact .inr ⟨hc, r, hr, hk, hb⟩
  · rintro (⟨hc, r, hr, hb⟩ | ⟨hc, r, hr, hk, hb⟩)
    · exact ⟨hc, .inl ⟨r, hr, hb⟩⟩
    · exact ⟨hc, .inr ⟨r, ⟨hr, hk, a, hb.1, hb.2, Latched.covers_iff.mp hc⟩, hb⟩⟩

theorem Latched.affected_iff {l : Latched} {a : Nat} :
    l.affected a = true ↔ (∃ v, v ∈ l.heldAt a) ∨ l.unstableAt a = true := by
  simp only [Latched.affected, Bool.or_eq_true, Bool.not_eq_true', List.isEmpty_eq_false_iff, List.ne_nil_iff_exists_cons]
  refine or_congr_left ⟨?_, ?_⟩
  · rintro ⟨v, vs, h⟩
    exact ⟨v, by simp [h]⟩
  · rintro ⟨v, h⟩
    cases e : l.heldAt a with
    | nil => simp [e] at h
    | cons w ws => exact ⟨w, ws, rfl⟩

/-- A duty is broken exactly when some byte is affected. -/
theorem Latched.broken_iff {l : Latched} : l.broken = true ↔ ∃ a, l.affected a = true := by
  simp only [Latched.affected_iff, Latched.mem_heldAt, Latched.broken, Bool.or_eq_true, List.any_eq_true, Region.touches_iff,
    Latched.unstableAt, Bool.and_eq_true, decide_eq_true_eq, Latched.covers_iff]
  constructor
  · rintro (⟨⟨a, v⟩, h, hc⟩ | ⟨r, h, a, h1, h2, hc⟩)
    · exact ⟨a, .inl ⟨v, hc, h⟩⟩
    · exact ⟨a, .inr ⟨hc, r, h, h1, h2⟩⟩
  · rintro ⟨a, ⟨v, hc, h⟩ | ⟨hc, r, h, h1, h2⟩⟩
    · exact .inl ⟨(a, v), h, hc⟩
    · exact .inr ⟨r, h, a, h1, h2, hc⟩

/-- What an affected byte reads as (20_memory.md R66). -/
theorem State.affectedRead_cases (s : State) (l : Latched) (x : Word) (a : Nat) :
    (l.affected a = false → s.affectedRead l x a = s.portByte a) ∧
      (l.affected a = true → l.unstableAt a = false → s.affectedRead l x a ∈ l.heldAt a) := by
  simp only [Latched.affected, Bool.or_eq_false_iff, Bool.or_eq_true, Bool.not_eq_false', Bool.not_eq_true',
    List.isEmpty_iff, List.isEmpty_eq_false_iff, State.affectedRead]
  refine ⟨fun ⟨h, hu⟩ => by simp [h, hu], fun h hu => ?_⟩
  have hn : l.heldAt a ≠ [] := h.resolve_right (by simp [hu])
  have hlt := Nat.mod_lt x.toNat (List.length_pos_of_ne_nil hn)
  rw [hu, if_neg Bool.false_ne_true, List.getD_eq_getElem _ _ hlt]
  exact List.getElem_mem hlt

theorem State.mem_pending {s : State} {cells : List Host.Cell} {a : Nat} {v : Byte} :
    (a, v) ∈ s.pending cells ↔ ∃ c ∈ cells, c.1 = a ∧ (v = s.portByte a ∨ v = c.2) := by
  simp only [State.pending, List.mem_flatMap, List.mem_cons, List.not_mem_nil, or_false]
  refine exists_congr fun c => and_congr_right fun _ => ?_
  constructor
  · rintro (h | rfl)
    · obtain ⟨rfl, rfl⟩ := Prod.mk.inj h
      exact ⟨rfl, .inl rfl⟩
    · exact ⟨rfl, .inr rfl⟩
  · rintro ⟨rfl, rfl | rfl⟩
    · exact .inl rfl
    · exact .inr rfl

/-- Which values a command's issue marks: those of the bytes of its buffer whose stores are not visible yet. -/
theorem State.mem_heldAt_latch {s : State} {cw : Word} {a : Nat} {v : Byte} :
    v ∈ (s.latch cw).heldAt a ↔ (s.srcAddr.toNat ≤ a ∧ a < s.srcAddr.toNat + s.length.toNat) ∧
      ∃ c ∈ s.staged, c.1 = a ∧ (v = s.portByte a ∨ v = c.2) := by
  rw [State.latch, Latched.mem_heldAt_mark, State.mem_pending, Latched.mem_heldAt, Latched.covers_iff]
  simp

/-- Which bytes a command's issue marks as unstable: those of its buffer where reads have side effects. -/
theorem State.unstableAt_latch {s : State} {cw : Word} {a : Nat} :
    (s.latch cw).unstableAt a = true ↔
      (s.srcAddr.toNat ≤ a ∧ a < s.srcAddr.toNat + s.length.toNat) ∧ sideEffectAt s.regions a := by
  rw [State.latch, Latched.unstableAt_mark, Latched.covers_iff]
  simp [Latched.unstableAt]

/-- The tail that ONESHOT keeps where a duty is broken (43_commands.md R173). -/
theorem State.hashBroken_lbufByte (s : State) (w : Width) (l : Latched) {k : Nat} (hk : k < 16) :
    (s.hashBroken w l).lbufByte k =
      if k < l.length.toNat % 16 then
        s.affectedRead l (s.freeWord (8 + k)) (l.srcAddr.toNat + 16 * (l.length.toNat / 16) + k)
      else 0 := by
  have h : (s.hashBroken w l).lbuf = tailBuffer
      (fun k => s.affectedRead l (s.freeWord (8 + k)) (l.srcAddr.toNat + 16 * (l.length.toNat / 16) + k))
      (l.length.toNat % 16) := rfl
  rw [State.lbufByte, h, tailBuffer_byte _ _ k hk]

end Sys2Proof.Machine
end

