-- ==== Sys2Proof/Laws/Exec.lean ====
section
/-! SUPPORT. What each meaning can do, said once: the equations of the accepted bodies and the inversion lemma of `exec`. -/

namespace Sys2Proof.Machine

/-! ### Operand forms -/

@[simp] theorem widthOf_code (wd : Width) : widthOf wd.code = some wd := by cases wd <;> rfl

theorem widthOf_eq_none {w : BitVec 2} : widthOf w = none ↔ w = 3#2 := by revert w; decide

theorem widthOf_eq_some {w : BitVec 2} {wd : Width} : widthOf w = some wd ↔ w = wd.code := by
  cases wd <;> revert w <;> decide

/-- The range check of ONESHOT says what R174 says. -/
theorem inRange_iff (aw A L : Nat) : inRange aw A L = true ↔ A < 2 ^ aw ∧ A + L ≤ 2 ^ aw := by
  have := Nat.two_pow_pos aw
  simp only [inRange, Bool.or_eq_true, beq_iff_eq, Bool.and_eq_true, decide_eq_true_eq]
  omega

theorem rangeCheck_ok {s : State} {l : Latched} :
    rangeCheck s l = .ok ↔
      l.srcAddr.toNat < 2 ^ addrWidth s.cfg ∧ l.srcAddr.toNat + l.length.toNat ≤ 2 ^ addrWidth s.cfg := by
  rw [rangeCheck, ← inRange_iff]
  split <;> simp_all

theorem rangeCheck_eq (s : State) (l : Latched) : rangeCheck s l = .ok ∨ rangeCheck s l = .range := by
  unfold rangeCheck
  split <;> simp

/-! ### The bodies -/

/-- The state ONESHOT leaves before `ERR` and `BUSY` (43_commands.md R173), as one update. -/
theorem State.hashBuffer_eq (s : State) (w : Width) (sd L : Word) (A : Nat) :
    s.hashBuffer w sd L A =
      let x := extract s.cfg sd w (closedState s.cfg sd L (s.memRead A) L.toNat) Quad.zero
      { s with
        sseed := sd, width := w, h := x.1, dout := x.2, inner := decide (L.toNat / 16 % 2 = 1),
        lbuf := tailBuffer (s.memRead (A + 16 * (L.toNat / 16))) (L.toNat % 16),
        lfill := Fin.ofNat 16 (L.toNat % 16), count := L, phase := .done } := by
  have hb : (fun j => s.memRead A (16 * (L.toNat / 16) + j)) = s.memRead (A + 16 * (L.toNat / 16)) := by
    funext j
    simp only [State.memRead, Nat.add_assoc]
  unfold State.hashBuffer
  dsimp only
  rw [State.scanLanes_eq _ _ _ rfl]
  simp only [closedState, hb]
  rfl

theorem State.finish_opened {s : State} (h : s.phase = .opened) :
    s.finish = { s.closeAndExtract s.lbufByte s.lfill.val s.width with phase := .done } := by
  unfold State.finish
  rw [h]

theorem State.finish_done {s : State} (h : s.phase = .done) : s.finish = s := by
  unfold State.finish
  rw [h]

/-! ### The inversion lemma of `exec` -/

theorem Phase.cases_eq (p : Phase) : p = .idle ∨ p = .opened ∨ p = .done := by cases p <;> simp

/-- Everything a command can do (43_commands.md R162): be rejected, take one of the accepted effects, or wait for a read that is
never answered. -/
theorem exec_next_cases {i : Instr} {s t : State} (h : exec i s = .next t) :
    (∃ c, c ≠ .ok ∧ t = { s with err := c, running := none }) ∨
    (i = .nop ∧ t = { s with err := .ok, running := none }) ∨
    (∃ w wd, i = .init w ∧ widthOf w = some wd ∧
      t = { s.openSession wd (s.latched (encode i)).seed (s.latched (encode i)).length with err := .ok, running := none }) ∨
    (∃ n, i = .absorb n ∧ n.toNat ≤ 16 ∧ s.phase = .opened ∧
      t = { s.push (dataByte (s.latched (encode i)).din0 (s.latched (encode i)).din1) n.toNat with err := .ok, running := none }) ∨
    (i = .final ∧ s.phase = .opened ∧
      t = { s.closeAndExtract s.lbufByte s.lfill.val s.width with phase := .done, err := .ok, running := none }) ∨
    (i = .final ∧ s.phase = .done ∧ t = { s with err := .ok, running := none }) ∨
    (∃ w wd, i = .oneshot w ∧ widthOf w = some wd ∧ rangeCheck s (s.latched (encode i)) = .ok ∧
      ((s.unanswered (s.latched (encode i)).srcAddr.toNat (s.latched (encode i)).length.toNat = true ∧
          t = { s with running := some (s.latched (encode i)) }) ∨
       (s.unanswered (s.latched (encode i)).srcAddr.toNat (s.latched (encode i)).length.toNat = false ∧
          (s.latched (encode i)).broken = true ∧
          t = { s.hashBroken wd (s.latched (encode i)) with err := .ok, running := none }) ∨
       (s.unanswered (s.latched (encode i)).srcAddr.toNat (s.latched (encode i)).length.toNat = false ∧
          (s.latched (encode i)).broken = false ∧
          t = { s.hashBuffer wd (s.latched (encode i)).seed (s.latched (encode i)).length
                  (s.latched (encode i)).srcAddr.toNat with err := .ok, running := none }))) ∨
    (i = .clear ∧ t = { s.clearCore with err := .ok, running := none }) := by
  cases i with
  | nop => exact .inr (.inl ⟨rfl, accept_next h⟩)
  | init w =>
    simp only [exec, execInit] at h
    split at h
    · exact .inl ⟨_, by decide, reject_next h⟩
    · next wd hw => exact .inr (.inr (.inl ⟨w, wd, rfl, hw, accept_next h⟩))
  | absorb n =>
    simp only [exec, execAbsorb, absorbCheck] at h
    split at h
    · exact .inl ⟨_, by decide, reject_next h⟩
    · next hn =>
      rcases s.phase.cases_eq with hp | hp | hp <;> simp only [hp] at h
      · exact .inl ⟨.noSession, by decide, reject_next h⟩
      · exact .inr (.inr (.inr (.inl ⟨n, rfl, Nat.le_of_not_lt hn, hp, accept_next h⟩)))
      · exact .inl ⟨.closed, by decide, reject_next h⟩
  | final =>
    simp only [exec, execFinal, finalCheck] at h
    rcases s.phase.cases_eq with hp | hp | hp <;> simp only [hp] at h
    · exact .inl ⟨.noSession, by decide, reject_next h⟩
    · rw [State.finish_opened hp] at h
      exact .inr (.inr (.inr (.inr (.inl ⟨rfl, hp, accept_next h⟩))))
    · rw [State.finish_done hp] at h
      exact .inr (.inr (.inr (.inr (.inr (.inl ⟨rfl, hp, accept_next h⟩)))))
  | oneshot w =>
    simp only [exec, execOneshot] at h
    split at h
    · exact .inl ⟨_, by decide, reject_next h⟩
    · next wd hw =>
      rcases rangeCheck_eq s (s.latched (encode (.oneshot w))) with hr | hr <;> simp only [hr] at h
      · refine .inr (.inr (.inr (.inr (.inr (.inr (.inl ⟨w, wd, rfl, hw, hr, ?_⟩))))))
        split at h
        · next hu => exact .inl ⟨hu, stall_next h⟩
        · next hu =>
          split at h
          · next hb => exact .inr (.inl ⟨by simpa using hu, hb, accept_next h⟩)
          · next hb => exact .inr (.inr ⟨by simpa using hu, by simpa using hb, accept_next h⟩)
      · exact .inl ⟨_, by decide, reject_next h⟩
  | clear => exact .inr (.inr (.inr (.inr (.inr (.inr (.inr ⟨rfl, accept_next h⟩))))))

/-- What no command touches: the build, the operand registers, the platform's side, the schedule (43_commands.md; 20_memory.md
R56). -/
theorem exec_frame {i : Instr} {s t : State} (h : exec i s = .next t) :
    t.cfg = s.cfg ∧ t.seed = s.seed ∧ t.length = s.length ∧ t.srcAddr = s.srcAddr ∧ t.din0 = s.din0 ∧ t.din1 = s.din1 ∧
      t.mem = s.mem ∧ t.staged = s.staged ∧ t.regions = s.regions ∧ t.events = s.events ∧ t.rdata = s.rdata := by
  rcases exec_next_cases h with ⟨c, -, rfl⟩ | ⟨-, rfl⟩ | ⟨w, wd, -, -, rfl⟩ | ⟨n, -, -, -, rfl⟩ | ⟨-, -, rfl⟩ | ⟨-, -, rfl⟩ |
    ⟨w, wd, -, -, -, ⟨-, rfl⟩ | ⟨-, -, rfl⟩ | ⟨-, -, rfl⟩⟩ | ⟨-, rfl⟩
  case inr.inr.inr.inl => rw [State.push_frame]; simp
  case inr.inr.inr.inr.inr.inr.inl.inr.inr => rw [State.hashBuffer_eq]; simp
  all_goals exact ⟨rfl, rfl, rfl, rfl, rfl, rfl, rfl, rfl, rfl, rfl, rfl⟩

theorem perform_next_cases {s t : State} {l : Latched} (h : s.perform l = .next t) :
    (∃ e, decode l.cw = .error e ∧ t = { s with err := codeOfDecodeError e, running := none }) ∨
    (∃ i, decode l.cw = .ok i ∧ exec i s = .next t) := by
  unfold State.perform at h
  split at h
  · next e he => exact .inl ⟨e, he, reject_next h⟩
  · next i hi => exact .inr ⟨i, hi, h⟩

/-- ABSORB where its checks pass, as one update (43_commands.md R168). -/
theorem exec_absorb_opened {s : State} {n : BitVec 5} (hp : s.phase = .opened) (hn : n.toNat ≤ 16) :
    exec (.absorb n) s = .next { s.push (dataByte (s.latched (encode (.absorb n))).din0 (s.latched (encode (.absorb n))).din1) n.toNat
      with err := .ok, running := none } := by
  simp [exec, execAbsorb, absorbCheck, hp, Nat.not_lt.mpr hn, accept]

/-- ONESHOT where its checks pass and its reads are answered (43_commands.md R173). -/
theorem exec_oneshot_inRange {s : State} {l : Latched} {wd : Width} (hl : s.latched (encode (.oneshot wd.code)) = l)
    (hr : rangeCheck s l = .ok) (hu : s.unanswered l.srcAddr.toNat l.length.toNat = false) :
    exec (.oneshot wd.code) s =
      if l.broken then .next { s.hashBroken wd l with err := .ok, running := none }
      else .next { s.hashBuffer wd l.seed l.length l.srcAddr.toNat with err := .ok, running := none } := by
  simp [exec, execOneshot, hl, hr, hu, accept]

/-! ### The host operand registers play no part in a running command (43_commands.md R160) -/

theorem State.pushByte_withOperands (s : State) (d : Byte) (a b c e f : Word) :
    (s.withOperands a b c e f).pushByte d = (s.pushByte d).withOperands a b c e f := by
  unfold State.pushByte
  by_cases h : s.lfill.val = 15
  · have h' : (s.withOperands a b c e f).lfill.val = 15 := h
    dsimp only
    rw [if_pos h, if_pos h']
    rfl
  · have h' : ¬(s.withOperands a b c e f).lfill.val = 15 := h
    dsimp only
    rw [if_neg h, if_neg h']
    rfl

theorem State.pushBytes_withOperands (s : State) (d : Nat → Byte) (n : Nat) (a b c e f : Word) :
    (s.withOperands a b c e f).pushBytes d n = (s.pushBytes d n).withOperands a b c e f := by
  induction n with
  | zero => rfl
  | succ n ih => rw [State.pushBytes, State.pushBytes, ih, State.pushByte_withOperands]

end Sys2Proof.Machine
end

