-- ==== Sys2Proof/Laws/PerInstr.lean ====
section
/-! SUPPORT. The family `EncodesOpcode` (LAWS.json): the word of a command carries its opcode and no reserved bit (spec
30_encoding.md R81, R82, R86). One lemma per command. -/

namespace Sys2Proof.Laws.EncodesOpcode

/-- The word of `i` carries the `OP` of R82, and its reserved bits are 0 (R86). -/
def Statement (i : Instr) : Prop :=
  opField (encode i) = i.opcode ∧ reservedLow (encode i) = 0#2 ∧ reservedHigh (encode i) = 0#51

theorem nop : Statement .nop := by unfold Statement; decide

theorem init (w : BitVec 2) : Statement (.init w) := by unfold Statement; revert w; decide

theorem absorb (n : BitVec 5) : Statement (.absorb n) := by unfold Statement; revert n; decide

theorem final : Statement .final := by unfold Statement; decide

theorem oneshot (w : BitVec 2) : Statement (.oneshot w) := by unfold Statement; revert w; decide

theorem clear : Statement .clear := by unfold Statement; decide

end Sys2Proof.Laws.EncodesOpcode
end

