-- ==== Sys2Proof/Laws/Step.lean ====
section
/-! SUPPORT. What one step can do, said once. -/

namespace Sys2Proof.Machine

/-- A latency elapses next: the schedule says so, or it is empty and time passes. -/
def State.timePasses (s : State) : Prop := s.events = [] ∨ ∃ rest, s.events = .elapse :: rest

/-- A whole access in the window, from its bus address. -/
theorem windowOffset_eq_some {c : Config} {addr off : Nat} :
    windowOffset c addr = some off ↔ addr = regBase c + off ∧ off < 256 := by
  unfold windowOffset
  split
  · simp only [Option.some.injEq]; omega
  · simp only [reduceCtorEq, false_iff]; omega

theorem wholeAccess_iff {off size : Nat} : wholeAccess off size = true ↔ size = 8 ∧ off % 8 = 0 := by
  simp [wholeAccess]

/-- The inversion lemma of `step`. -/
theorem step_next_cases {s t : State} (h : step s = .next t) :
    (s.timePasses ∧ s.running = none ∧ t = { s with events := s.events.tail }) ∨
    (s.timePasses ∧ ∃ l, s.running = some l ∧ State.perform { s with events := s.events.tail } l = .next t) ∨
    (∃ rest, s.events = .host :: rest ∧ t = State.hostTurn { s with events := rest }) ∨
    (∃ off rest, s.events = .read (regBase s.cfg + off) 8 :: rest ∧ off < 256 ∧ off % 8 = 0 ∧
      t = State.hostRead { s with events := rest } off) ∨
    (∃ off v rest, s.events = .write (regBase s.cfg + off) 8 v :: rest ∧ off < 256 ∧ off % 8 = 0 ∧
      t = State.hostWrite { s with events := rest } off v) ∨
    (∃ a v rest, s.events = .store a v :: rest ∧ a < 2 ^ addrWidth s.cfg ∧
      t = { s with events := rest, staged := s.staged ++ [(a, v)], running := s.running.map (fun l => l.mark (s.pending [(a, v)]) []) }) ∨
    (∃ rest, s.events = .fence :: rest ∧ t = State.fenceStores { s with events := rest }) ∨
    (∃ rs rest, s.events = .remap rs :: rest ∧ t = State.setRegions { s with events := rest } rs) ∨
    (∃ rest, s.events = .reset :: rest ∧ t = State.assertReset { s with events := rest }) := by
  have adv : ∀ u : State, u.advance = .next t →
      (u.running = none ∧ t = u) ∨ (∃ l, u.running = some l ∧ u.perform l = .next t) := by
    intro u hu
    unfold State.advance at hu
    split at hu
    · next l hl => exact .inr ⟨l, hl, hu⟩
    · next hl => injection hu with hu; exact .inl ⟨hl, hu.symm⟩
  unfold step at h
  split at h
  · next he =>
    have e : ({ s with events := s.events.tail } : State) = s := by rw [he, List.tail_nil, ← he]
    rw [e]
    rcases adv s h with ⟨h1, h2⟩ | h2
    · exact .inl ⟨.inl he, h1, h2⟩
    · exact .inr (.inl ⟨.inl he, h2⟩)
  · next e rest he =>
    have hs : s.events.tail = rest := by rw [he, List.tail_cons]
    rw [hs]
    cases e with
    | elapse =>
      rcases adv _ h with ⟨h1, h2⟩ | h2
      · exact .inl ⟨.inr ⟨rest, he⟩, h1, h2⟩
      · exact .inr (.inl ⟨.inr ⟨rest, he⟩, h2⟩)
    | host =>
      injection h with h
      exact .inr (.inr (.inl ⟨rest, he, h.symm⟩))
    | read addr size =>
      simp only [State.handle, State.busRead] at h
      split at h
      · cases h
      · next off ho =>
        obtain ⟨rfl, hlt⟩ := windowOffset_eq_some.mp ho
        split at h
        · next hw =>
          obtain ⟨rfl, h8⟩ := wholeAccess_iff.mp hw
          injection h with h
          exact .inr (.inr (.inr (.inl ⟨off, rest, he, hlt, h8, h.symm⟩)))
        · cases h
    | write addr size v =>
      simp only [State.handle, State.busWrite] at h
      split at h
      · cases h
      · next off ho =>
        obtain ⟨rfl, hlt⟩ := windowOffset_eq_some.mp ho
        split at h
        · next hw =>
          obtain ⟨rfl, h8⟩ := wholeAccess_iff.mp hw
          injection h with h
          exact .inr (.inr (.inr (.inr (.inl ⟨off, v, rest, he, hlt, h8, h.symm⟩))))
        · cases h
    | store a v =>
      simp only [State.handle, State.agentStore] at h
      split at h
      · next hlt =>
        injection h with h
        exact .inr (.inr (.inr (.inr (.inr (.inl ⟨a, v, rest, he, hlt, h.symm⟩)))))
      · cases h
    | fence =>
      injection h with h
      exact .inr (.inr (.inr (.inr (.inr (.inr (.inl ⟨rest, he, h.symm⟩))))))
    | remap rs =>
      injection h with h
      exact .inr (.inr (.inr (.inr (.inr (.inr (.inr (.inl ⟨rs, rest, he, h.symm⟩)))))))
    | reset =>
      injection h with h
      exact .inr (.inr (.inr (.inr (.inr (.inr (.inr (.inr ⟨rest, he, h.symm⟩)))))))

/-- The register map (20_memory.md R51): a register is found at its offset. -/
@[simp] theorem regAt_offset (r : Reg) : regAt r.offset = some r := by cases r <;> rfl

theorem regAt_eq_some {off : Nat} {r : Reg} (h : regAt off = some r) : off = r.offset := by
  have := List.find?_some h
  exact (of_decide_eq_true this).symm

/-- A register read writes `rdata`, and `draws` where a free value is drawn (43_commands.md R177; 70_reset_and_hazards.md R241). -/
theorem State.readReg_changes (s : State) (r : Reg) : ∃ v d, s.readReg r = { s with rdata := v, draws := d } := by
  unfold State.readReg
  split
  · exact ⟨_, _, rfl⟩
  · exact ⟨_, s.draws, rfl⟩

theorem State.hostRead_changes (s : State) (off : Nat) : ∃ v d, s.hostRead off = { s with rdata := v, draws := d } := by
  unfold State.hostRead
  split
  · exact s.readReg_changes _
  · exact ⟨_, s.draws, rfl⟩

/-- What a register write can do (43_commands.md R178). -/
theorem State.writeReg_cases (s : State) (r : Reg) (v : Word) :
    s.writeReg r v = s ∨ (r = .ctrl ∧ s.busy = true ∧ s.writeReg r v = s.setOverrun) ∨
      (r = .ctrl ∧ s.busy = false ∧ s.writeReg r v = s.issue v) ∨
      ∃ a b c d e, s.writeReg r v = s.withOperands a b c d e := by
  cases r
  case ctrl =>
    rcases hb : s.busy with _ | _
    · exact .inr (.inr (.inl ⟨rfl, rfl, if_neg (by simp [hb])⟩))
    · exact .inr (.inl ⟨rfl, rfl, if_pos hb⟩)
  case seed => exact .inr (.inr (.inr ⟨v, s.length, s.srcAddr, s.din0, s.din1, rfl⟩))
  case length => exact .inr (.inr (.inr ⟨s.seed, v, s.srcAddr, s.din0, s.din1, rfl⟩))
  case srcAddr => exact .inr (.inr (.inr ⟨s.seed, s.length, v, s.din0, s.din1, rfl⟩))
  case din0 => exact .inr (.inr (.inr ⟨s.seed, s.length, s.srcAddr, v, s.din1, rfl⟩))
  case din1 => exact .inr (.inr (.inr ⟨s.seed, s.length, s.srcAddr, s.din0, v, rfl⟩))
  all_goals exact .inl rfl

theorem State.hostWrite_cases (s : State) (off : Nat) (v : Word) :
    s.hostWrite off v = s ∨ (off = 0 ∧ s.busy = true ∧ s.hostWrite off v = s.setOverrun) ∨
      (off = 0 ∧ s.busy = false ∧ s.hostWrite off v = s.issue v) ∨
      ∃ a b c d e, s.hostWrite off v = s.withOperands a b c d e := by
  unfold State.hostWrite
  split
  · next r hr =>
    have ho : r = .ctrl → off = 0 := fun h => (regAt_eq_some hr).trans (by rw [h]; rfl)
    rcases s.writeReg_cases r v with h | ⟨hc, h⟩ | ⟨hc, h⟩ | h
    · exact .inl h
    · exact .inr (.inl ⟨ho hc, h⟩)
    · exact .inr (.inr (.inl ⟨ho hc, h⟩))
    · exact .inr (.inr (.inr h))
  · exact .inl rfl

/-- What a turn of the host program can do (30_encoding.md R89). -/
theorem State.hostTurn_cases (s : State) :
    (s.program = [] ∧ s.hostTurn = s) ∨
      (∃ r v p, s.program = .write r v :: p ∧ s.hostTurn = State.writeReg { s with program := p } r v) ∨
      (∃ r p, s.program = .read r :: p ∧ s.hostTurn = State.readReg { s with program := p } r) ∨
      ∃ p q, s.program = .wait :: p ∧ s.hostTurn = { s.readReg .status with program := q } := by
  unfold State.hostTurn
  split
  · next h => exact .inl ⟨h, rfl⟩
  · next r v p h => exact .inr (.inl ⟨r, v, p, h, rfl⟩)
  · next r p h => exact .inr (.inr (.inl ⟨r, p, h, rfl⟩))
  · next p h =>
    refine .inr (.inr (.inr ?_))
    dsimp only
    split
    · exact ⟨p, _, h, rfl⟩
    · exact ⟨p, p, h, rfl⟩

/-- A register read has nothing to do with the host's program. -/
theorem State.readReg_program (s : State) (r : Reg) (p : List Access) :
    State.readReg { s with program := p } r = { s.readReg r with program := p } := by
  unfold State.readReg
  by_cases h : (s.busy && decide (r.anyWhileBusy ≠ 0)) = true
  · have h' : (State.busy { s with program := p } && decide (r.anyWhileBusy ≠ 0)) = true := h
    rw [if_pos h, if_pos h']
    cases r <;> rfl
  · have h' : ¬(State.busy { s with program := p } && decide (r.anyWhileBusy ≠ 0)) = true := h
    rw [if_neg h, if_neg h']
    cases r <;> rfl

/-- A `wait` reads `STATUS` and stays in the program exactly while `BUSY = 1`. -/
theorem State.hostTurn_wait {s : State} {p : List Access} (h : s.program = .wait :: p) :
    s.hostTurn = { s.readReg .status with program := if s.busy then .wait :: p else p } := by
  obtain ⟨v, d, hr⟩ := s.readReg_changes .status
  unfold State.hostTurn
  rw [h]
  dsimp only
  rw [hr]
  split <;> simp [h]

/-- While a command runs, a read of `STATUS` shows it (70_reset_and_hazards.md R241). -/
theorem State.readReg_status_busy {s : State} (h : s.busy = true) : (s.readReg .status).rdata.getLsbD 0 = true := by
  have hm : statusAnyWhileBusy.getLsbD 0 = false := by decide
  have hv : s.status.getLsbD 0 = true := by simp [State.status, fieldAt, h]
  rw [State.readReg, h, if_pos (by decide)]
  simp only [Reg.anyWhileBusy, State.regValue, BitVec.getLsbD_or, BitVec.getLsbD_and, BitVec.getLsbD_not, hm, hv]
  rfl

/-- With none running, it shows that (43_commands.md R177). -/
theorem State.readReg_status_idle {s : State} (h : s.busy = false) : (s.readReg .status).rdata.getLsbD 0 = false := by
  rw [State.readReg, h]
  simp [State.regValue, State.status, fieldAt, h]

/-! ### One step, from the next event -/

theorem step_of_nil {s : State} (h : s.events = []) : step s = s.advance := by
  unfold step
  rw [h]

theorem step_of_cons {s : State} {e : Event} {rest : List Event} (h : s.events = e :: rest) :
    step s = State.handle { s with events := rest } e := by
  unfold step
  rw [h]

theorem State.advance_of_running {s : State} {l : Latched} (h : s.running = some l) : s.advance = s.perform l := by
  unfold State.advance
  rw [h]

theorem Reg.offset_whole (r : Reg) : r.offset < 256 ∧ r.offset % 8 = 0 := by cases r <;> decide

/-- A reserved offset has no register (20_memory.md R53). -/
theorem regAt_reserved {off : Nat} (h : 0x80 ≤ off) : regAt off = none := by
  rcases e : regAt off with _ | r
  · rfl
  · have ho := regAt_eq_some e
    subst ho
    exact absurd h (by cases r <;> decide)

/-- A whole write in the window (20_memory.md R52). -/
theorem step_write {s : State} {off : Nat} {v : Word} {rest : List Event}
    (he : s.events = .write (regBase s.cfg + off) 8 v :: rest) (h : off < 256) (h8 : off % 8 = 0) :
    step s = .next (State.hostWrite { s with events := rest } off v) := by
  have hw : windowOffset ({ s with events := rest } : State).cfg (regBase s.cfg + off) = some off :=
    windowOffset_eq_some.mpr ⟨rfl, h⟩
  rw [step_of_cons he]
  simp only [State.handle, State.busWrite]
  rw [hw]
  dsimp only
  rw [wholeAccess_iff.mpr ⟨rfl, h8⟩]
  rfl

/-- A whole read in the window (20_memory.md R52). -/
theorem step_read {s : State} {off : Nat} {rest : List Event}
    (he : s.events = .read (regBase s.cfg + off) 8 :: rest) (h : off < 256) (h8 : off % 8 = 0) :
    step s = .next (State.hostRead { s with events := rest } off) := by
  have hw : windowOffset ({ s with events := rest } : State).cfg (regBase s.cfg + off) = some off :=
    windowOffset_eq_some.mpr ⟨rfl, h⟩
  rw [step_of_cons he]
  simp only [State.handle, State.busRead]
  rw [hw]
  dsimp only
  rw [wholeAccess_iff.mpr ⟨rfl, h8⟩]
  rfl

/-- One step of a run. -/
theorem run_succ (M : Host.Core) {k : Nat} {s s' : M.State} (h : M.step s = .next s') : M.run (k + 1) s = M.run k s' := by
  rw [Host.Core.run, h]

end Sys2Proof.Machine
end

