-- ==== Sys2Proof/Tests/Slice0.lean ====
section
/-! SUPPORT. The model's own tests. Expected values are those of spec/95_test_vectors.md, or words written out from
spec/30_encoding.md; each test says which. Then one witness for each obligation with hypotheses: a concrete state and operands
that meet all of them, at the edges of their ranges. -/

namespace Sys2Proof.Tests

open Sys2Proof.Machine

/-! ### Builds and states -/

/-- Configuration TC1 (95 section 2), with `AW = 64`. -/
def tc1 (e : Endian) : Config := ⟨1, 1, 1, 1, 1, 1, 1, 1, e, allAdd, 63, 3⟩

/-- Configuration TC2 (95 section 2), with `AW = 32` as program P2 has it, and `REG_BASE = 0x300`. -/
def tc2 (e : Endian) : Config :=
  ⟨0x9E3779B97F4A7C15, 0xBF58476D1CE4E5B9, 0x94D049BB133111EB, 0xD6E8FEB86659FD93, 0xA0761D6478BD642F, 0xE7037ED1A0B428DB,
   0x8EBC6AF09C88C6E3, 0x589965CC75374CC3, e, allAdd, 31, 3⟩

/-- After reset, built as TC2. -/
def idleState (e : Endian) : State := { State.reset with cfg := tc2 e }

/-- A session just opened with length 17 (95 program P1, first row). -/
def openState (e : Endian) : State :=
  { idleState e with phase := .opened, h := ⟨0x12, 0x14, 0x16, 0x18⟩, width := .w256, length := 17 }

/-- A session with its digest computed. -/
def doneState (e : Endian) : State := { openState e with phase := .done, dout := ⟨1, 2, 3, 4⟩ }

/-- The buffer of program P2: the bytes 0x00 to 0x10 at 0x1000. -/
def bufferState (e : Endian) : State :=
  { idleState e with
    length := 17, srcAddr := 0x1000, mem := (List.range 17).map (fun k => (0x1000 + k, BitVec.ofNat 8 k)) }

/-- The next state of an outcome. -/
def nextOf (r : Result) : Option State :=
  match r with
  | .next t => some t
  | .fault _ => none
  | .refused _ => none

/-- `S0` of 95 section 4. -/
def s0 : Quad := ⟨0x0123456789ABCDEF, 0xFEDCBA9876543210, 0x0F1E2D3C4B5A6978, 0x8796A5B4C3D2E1F0⟩

/-! ### Well-formed commands (30_encoding.md R83, R84): each check refuses an ill-formed term -/

theorem test_wf_init_width3_refused : Instr.wf (.init 3) = false := by decide

theorem test_wf_oneshot_width3_refused : Instr.wf (.oneshot 3) = false := by decide

theorem test_wf_absorb_17_refused : Instr.wf (.absorb 17) = false := by decide

theorem test_wf_accepts_the_edges : Instr.wf (.init 2) = true ∧ Instr.wf (.oneshot 2) = true ∧ Instr.wf (.absorb 16) = true := by
  decide

/-! ### Decoding, from words written out field by field (30_encoding.md R81: OP 3:0, W 5:4, 7:6 zero, N 12:8, 63:13 zero) -/

theorem test_decode_nop : decodeTableWord 64 0b0000 = some .nop := by decide

theorem test_decode_init : decodeTableWord 64 0b10_0001 = some (.init 2) := by decide

theorem test_decode_absorb : decodeTableWord 64 0b10000_00_00_0010 = some (.absorb 16) := by decide

theorem test_decode_final : decodeTableWord 64 0b0011 = some .final := by decide

theorem test_decode_oneshot : decodeTableWord 64 0b01_0100 = some (.oneshot 1) := by decide

theorem test_decode_clear : decodeTableWord 64 0b0101 = some .clear := by decide

/-- 95 section 9.1: rows with a reserved bit, a reserved OP, an unused field, and the ill-formed operands. -/
theorem test_decode_rejects :
    ([0x10, 0x100, 0x40, 0x80, 0x2000, 0x8000000000000000, 0x06, 0x0F, 0x31, 0x1102, 0x1F12, 0x13, 0x303, 0x34, 0x15].map
      (decodeTableWord 64)).all Option.isNone = true := by decide

/-- 95 section 9.1, the priority examples: 0x131 is BADOP and not BADWIDTH; 0x1102 in IDLE is BADCOUNT and not NOSESSION. -/
theorem test_check_priority :
    ((nextOf ((idleState .le).perform ((idleState .le).latch 0x131))).map State.err = some .badOp) ∧
    ((nextOf ((idleState .le).perform ((idleState .le).latch 0x1102))).map State.err = some .badCount) := by decide

/-! ### Operations (95 sections 3, 4, 6) -/

theorem test_rotr : rotr 1 23 = 0x0000020000000000 ∧ rotr 0x8000000000000000 23 = 0x0000010000000000 := by decide

theorem test_mixA_tc1 : mixA (tc1 .le) ⟨1, 0, 1, 0⟩ = ⟨0x0000020000000000, 0x1000, 0x0000000200000000, 0x1000000000000000⟩ := by
  decide

theorem test_mixA_tc2 :
    mixA (tc2 .le) s0 = ⟨0x9BAA57D14E15C64D, 0xDF9C72A10FD8BD3F, 0x8C175CF0CC116E16, 0x227ACD873567943F⟩ := by decide

theorem test_mixB_tc2 :
    mixB (tc2 .le) 0x1122334455667788 s0 = { s0 with w1 := 0xA370FC9D1CB95795, w2 := 0xB01866000C6021A2 } := by decide

theorem test_tail_15 :
    tailAbsorb allAdd (fun i => BitVec.ofNat 8 (i + 1)) 15 Quad.zero =
      ⟨0x0F0700000B030000, 0x000E0600000A0200, 0x00000D0500000901, 0x0000000C04000008⟩ := by decide

theorem test_tail_carries :
    tailAbsorb allAdd (fun _ => 0xFF) 15 ⟨0xFFFFFFFFFFFFFFFF, 0xFFFFFFFFFFFFFFFF, 0xFFFFFFFFFFFFFFFF, 0xFFFFFFFFFFFFFFFF⟩ =
      ⟨0xFFFF0000FFFEFFFF, 0x00FFFF0000FFFEFF, 0x0000FFFF0000FFFE, 0x000000FFFF0000FE⟩ := by decide

/-! ### The commands -/

/-- 95 program P3, step 12: NOP clears the code of the rejected command before it and nothing else. -/
theorem test_nop_clears_err :
    (nextOf (exec .nop { doneState .le with err := .badCount, lfill := 5, width := .w64 })).map State.status = some 0x54 := by
  decide

/-- 95 section 5.1, last row: `s + L` wraps. -/
theorem test_init_wraps :
    (nextOf (exec (.init 0) { idleState .le with seed := 0xFFFFFFFFFFFFFFFF, length := 0xFFFFFFFFFFFFFFFF })).map State.h =
      some ⟨0xFFFFFFFFFFFFFFFF, 1, 3, 5⟩ := by decide

/-- 95 program P1, first row. -/
theorem test_init_status :
    (nextOf (exec (.init 2) { idleState .le with length := 17 })).map (fun t => (t.status, t.h)) =
      some (0x202, ⟨0x12, 0x14, 0x16, 0x18⟩) := by decide

/-- 95 program P1, second row: a full lane under mixA. -/
theorem test_absorb_16 :
    (nextOf (exec (.absorb 16) { openState .le with din0 := 0x0706050403020100, din1 := 0x0F0E0D0C0B0A0908 })).map
        (fun t => (t.status, t.h)) =
      some (0x20A, ⟨0x187FC60F4FE22F0B, 0x7C003CF4CB01E32C, 0x1511756F86CC22A3, 0x7E48A5451DAEEFC2⟩) := by decide

/-- 95 program P4, fourth row: the lane is completed by the first four bytes of the beat, the fifth stays in `LBUF`. -/
theorem test_absorb_across_a_lane :
    (nextOf (exec (.absorb 5)
        { openState .be with
          lfill := 12, count := 12, lbuf := tailBuffer (fun k => BitVec.ofNat 8 k) 12, din0 := 0x100F0E0D0C })).map
        (fun t => (t.status, t.h, t.lbufByte 0)) =
      some (0x21A, ⟨0xCCC08391573B2C29, 0xE6366CD7270B844E, 0x3412AAF77F0B702E, 0x05D1768B010A9B64⟩, 0x10) := by decide

/-- 95 program P3, step 6: "hello", seed 0x1122334455667788, 64 bits, little-endian. -/
theorem test_final_hello :
    (nextOf (exec .final
        { idleState .le with
          phase := .opened, sseed := 0x1122334455667788, count := 5, lfill := 5
          h := ⟨0x112233445566778E, 0x1122334455667790, 0x1122334455667792, 0x1122334455667794⟩
          lbuf := tailBuffer (byteOf 0x6F6C6C6568) 5 })).map (fun t => (t.status, t.dout)) =
      some (0x54, ⟨0x684E911156365F68, 0, 0, 0⟩) := by decide

/-- 95 program P2, little-endian: `DOUT` as P1 ends. -/
theorem test_oneshot_17_le :
    (nextOf (exec (.oneshot 2) (bufferState .le))).map (fun t => (t.status, t.dout)) =
      some (0x21C, ⟨0x02A7A4D42CB19A2B, 0x748C214AA47EDF73, 0x6CC3A978E3F94345, 0x67D673EF7348B7FB⟩) := by decide

/-- 95 program P5, big-endian, 128 bits. -/
theorem test_oneshot_17_be_w128 :
    (nextOf (exec (.oneshot 1) (bufferState .be))).map (fun t => (t.status, t.dout)) =
      some (0x11C, ⟨0x6C12BA883BF61CFA, 0x8B62C3EBEFDE4A75, 0, 0⟩) := by decide

/-- 95 section 9.2, the rows whose answer is RANGE with `AW = 32`, and the two OK rows at the same edge. -/
theorem test_oneshot_range :
    inRange 32 0xFFFFFFFF 1 = true ∧ inRange 32 0xFFFFFFFF 2 = false ∧ inRange 32 0xFFFFFFFF 0 = true ∧
      inRange 32 0x100000000 0 = false ∧ inRange 32 0 0x100000000 = true ∧ inRange 32 0 0x100000001 = false ∧
      inRange 64 0xFFFFFFFFFFFFFFFF 1 = true ∧ inRange 64 0xFFFFFFFFFFFFFFFF 2 = false := by decide

/-- 95 program P3, step 13: CLEAR leaves `STATUS` 0 and keeps the operand registers. -/
theorem test_clear :
    (nextOf (exec .clear { doneState .le with ovr := true, err := .closed })).map (fun t => (t.status, t.h, t.dout, t.length)) =
      some (0, ⟨0, 0, 0, 0⟩, ⟨0, 0, 0, 0⟩, 17) := by decide

/-! ### The window and the schedule -/

/-- 95 program P6, second outcome: a command written while `BUSY` is dropped, and the first one completes. -/
theorem test_write_while_busy :
    (nextOf (step { idleState .le with
        running := some ((idleState .le).latch 0x01), events := [writeEvent (tc2 .le) .ctrl 0x03] })).map
        (fun t => (t.running.map Latched.cw, t.ovr)) = some (some 0x01, true) := by decide

/-- 95 section 9.3: a write to a read-only register is ignored. -/
theorem test_status_write_ignored :
    nextOf (step { doneState .le with events := [writeEvent (tc2 .le) .status 0x1234] }) = some (doneState .le) := by decide

/-- 20_memory.md R50: no address outside the window. -/
theorem test_outside_window : step { idleState .le with events := [.read 0x400 8] } = .fault .outsideWindow := by rfl

/-- 20_memory.md R56: no byte at 2^AW. -/
theorem test_outside_buffer : step { idleState .le with events := [.store 0x100000000 1] } = .fault .outsideBuffer := by rfl

/-- 30_encoding.md R88 through a step: the word 0x21 placed as the next command opens a 256-bit session. -/
theorem test_step_runs_a_placed_word :
    (nextOf (step (State.withFetchWord (idleState .le) 64 0x21))).map State.status = some 0x202 := by decide

/-- 30_encoding.md R89, R90: `open 5, 0, w64` is three writes and a wait. -/
theorem test_open_expands :
    programAccesses [.openSession 5 0 .w64] = [.write .seed 5, .write .length 0, .write .ctrl 0x01, .wait] := by decide

/-- 30_encoding.md R89: a `wait` on an idle core is over after one read, whatever follows. -/
theorem test_wait_ends_when_idle :
    (nextOf (step { State.withProgram (doneState .le) [.wait, .clear] with events := [.host, .host] })).map
        (fun t => (t.program, t.rdata)) = some ([.write .ctrl 0x05], 0x204) := by decide

/-- 30_encoding.md R89, 20_memory.md R63: a `wait` for an ONESHOT that never completes goes on, and `clear` is not written. -/
theorem test_wait_goes_on_while_busy :
    (nextOf (step { State.withProgram (State.issue { bufferState .le with regions := [⟨0x1010, 1, .silent⟩] } 0x04) [.wait, .clear]
        with events := [.host] })).map (fun t => (t.program, t.busy)) = some ([.wait, .write .ctrl 0x05], true) := by decide

/-! ### Witnesses: each meets all hypotheses of the obligation its name ends with -/

/-- `openState` with 12 bytes in `LBUF`. -/
def partState : State :=
  { openState .le with lfill := 12, count := 12, lbuf := tailBuffer (fun k => BitVec.ofNat 8 k) 12 }

/-- A machine on which `cw` has been issued in `s` and nothing is scheduled. -/
def issued (s : State) (cw : Word) : State := s.issue cw

/-- ONESHOT on the last byte of the space: `A + L = 2^AW`. -/
def edgeState : State := { idleState .le with length := 1, srcAddr := 0xFFFFFFFF, mem := [(0xFFFFFFFF, 0x41)] }

theorem witness_DecodeAndEncodeAgree :
    Instr.wf (.absorb 16) = true ∧ Instr.wf (.init 2) = true ∧ decode 0x1002 = .ok (.absorb 16) ∧
      decode 0x24 = .ok (.oneshot 2) := ⟨rfl, rfl, rfl, rfl⟩

theorem witness_ReservedWordsAreRejectedBadOp :
    6 ≤ (opField 0x06).toNat ∧ 6 ≤ (opField 0x0F).toNat ∧ reservedLow 0x40 ≠ 0 ∧ reservedLow 0x80 ≠ 0 ∧
      reservedHigh 0x2000 ≠ 0 ∧ reservedHigh 0x8000000000000000 ≠ 0 := by decide

/-- An unused `W` under each of the four commands without one. -/
theorem witness_ReservedWords_unusedW :
    ∀ cw ∈ ([0x10, 0x12, 0x13, 0x15] : List Word),
      (opField cw = 0 ∨ opField cw = 2 ∨ opField cw = 3 ∨ opField cw = 5) ∧ wField cw ≠ 0 := by
  intro cw h
  simp only [List.mem_cons, List.not_mem_nil, or_false] at h
  rcases h with rfl | rfl | rfl | rfl <;> decide

/-- An unused `N` under each of the five commands without one. -/
theorem witness_ReservedWords_unusedN :
    ∀ cw ∈ ([0x100, 0x101, 0x303, 0x104, 0x105] : List Word),
      (opField cw = 0 ∨ opField cw = 1 ∨ opField cw = 3 ∨ opField cw = 4 ∨ opField cw = 5) ∧ nField cw ≠ 0 := by
  intro cw h
  simp only [List.mem_cons, List.not_mem_nil, or_false] at h
  rcases h with rfl | rfl | rfl | rfl | rfl <;> decide

theorem witness_UnsupportedWidthAndCountAreRejected : 16 < (17 : BitVec 5).toNat ∧ 16 < (31 : BitVec 5).toNat := by decide

theorem witness_RejectedCommandWritesOnlyErr :
    ∃ t, State.perform (doneState .le) ((doneState .le).latch 0x102) = .next t ∧ t.running = none ∧ t.err ≠ .ok :=
  ⟨_, rfl, by decide, by decide⟩

/-- `cw`, issued in `s`, meets the hypotheses of `ChecksRunInTheListedOrder` and is checked with this code. -/
def checked (s : State) (cw : Word) (c : ResultCode) : Prop :=
  (issued s cw).running = some (s.latch cw) ∧ checkCode (issued s cw) (s.latch cw) = c

/-- One word for each line of the list, in a state that passes the lines before it, and one that passes them all. -/
theorem witness_ChecksRunInTheListedOrder :
    checked (doneState .le) 0x46 .badOp ∧ checked (doneState .le) 0x10 .badOp ∧ checked (doneState .le) 0x131 .badOp ∧
      checked (doneState .le) 0x12 .badOp ∧ checked (doneState .le) 0x31 .badWidth ∧ checked (idleState .le) 0x1102 .badCount ∧
      checked (idleState .le) 0x02 .noSession ∧ checked (doneState .le) 0x02 .closed ∧
      checked { edgeState with length := 2 } 0x04 .range ∧ checked edgeState 0x04 .ok := by
  unfold checked
  refine ⟨?_, ?_, ?_, ?_, ?_, ?_, ?_, ?_, ?_, ?_⟩ <;> decide

theorem witness_EachCommandReportsOnlyItsCodes :
    ([(.nop, idleState .le), (.init 2, idleState .le), (.init 3, idleState .le), (.absorb 16, openState .le),
      (.absorb 17, openState .le), (.absorb 0, idleState .le), (.absorb 0, doneState .le), (.final, openState .le),
      (.final, idleState .le), (.oneshot 0, edgeState), (.oneshot 3, edgeState), (.oneshot 0, { edgeState with length := 2 }),
      (.clear, doneState .le)] : List (Instr × State)).map (fun x => (nextOf (exec x.1 x.2)).map (fun t => (t.running.isNone, t.err))) =
      [some (true, .ok), some (true, .ok), some (true, .badWidth), some (true, .ok), some (true, .badCount), some (true, .noSession),
       some (true, .closed), some (true, .ok), some (true, .noSession), some (true, .ok), some (true, .badWidth),
       some (true, .range), some (true, .ok)] := by decide

theorem witness_SessionCommandsNeedTheirPhase :
    (16 : BitVec 5).toNat ≤ 16 ∧ (idleState .le).phase = .idle ∧ (doneState .le).phase = .done := by decide

/-- The two ways out of the space, each at its edge; the second clause is met by the same state. -/
theorem witness_OneshotOutOfRangeIsRejected :
    2 ^ addrWidth (tc2 .le) ≤
        (({ idleState .le with srcAddr := 0x100000000 } : State).latched (encode (.oneshot 0))).srcAddr.toNat ∧
      2 ^ addrWidth (tc2 .le) < (({ edgeState with length := 2 } : State).latched (encode (.oneshot 0))).srcAddr.toNat + 2 ∧
      ∃ t, exec (.oneshot 0) { edgeState with length := 2 } = .next t ∧ t.running = none ∧ t.err = .range :=
  ⟨by decide, by decide, _, rfl, by decide, by decide⟩

theorem witness_AbsorbCountsAndFills :
    (openState .le).phase = .opened ∧ partState.phase = .opened ∧ (16 : BitVec 5).toNat ≤ 16 ∧
      16 ≤ partState.lfill.val + (16 : BitVec 5).toNat ∧ ¬16 ≤ (openState .le).lfill.val + (15 : BitVec 5).toNat := by decide

theorem witness_AbsorbMovesTheDataBytes :
    (openState .le).phase = .opened ∧ partState.phase = .opened ∧ (4 : BitVec 5).toNat ≤ 16 ∧
      16 ≤ partState.lfill.val + (4 : BitVec 5).toNat ∧ ¬16 ≤ partState.lfill.val + (3 : BitVec 5).toNat := by decide

theorem witness_AbsorbIgnoresBytesFromNOn :
    (∃ l, (partState.issue (encode (.absorb 1))).running = some l ∧
      ∀ k < (1 : BitVec 5).toNat, dataByte 0xFFFFFFFFFFFFFF00 0xFFFF k = dataByte l.din0 l.din1 k) ∧
    partState.running = none ∧
      ∀ k < (1 : BitVec 5).toNat, dataByte 0xFFFFFFFFFFFFFF00 0xFFFF k = dataByte partState.din0 partState.din1 k :=
  ⟨⟨_, rfl, by decide⟩, rfl, by decide⟩

theorem witness_FinalClosesTheSession : partState.phase = .opened ∧ (doneState .le).phase = .done := by decide

theorem witness_RepeatedFinalChangesNothing : ∃ t, exec .final partState = .next t ∧ t.err = .ok := ⟨_, rfl, by decide⟩

/-- Met by the buffer of program P2 and by the last byte of the space. -/
theorem witness_OneshotHashesTheBuffer :
    (∀ s ∈ [bufferState .be, edgeState],
      (s.latched (encode (.oneshot Width.w256.code))).srcAddr.toNat < 2 ^ addrWidth s.cfg ∧
      (s.latched (encode (.oneshot Width.w256.code))).srcAddr.toNat + (s.latched (encode (.oneshot Width.w256.code))).length.toNat ≤
        2 ^ addrWidth s.cfg ∧
      s.unanswered (s.latched (encode (.oneshot Width.w256.code))).srcAddr.toNat
        (s.latched (encode (.oneshot Width.w256.code))).length.toNat = false ∧
      (s.latched (encode (.oneshot Width.w256.code))).broken = false) ∧
    edgeState.srcAddr.toNat + edgeState.length.toNat = 2 ^ addrWidth edgeState.cfg := by decide

/-- A store to the tail byte of the buffer that the fence has not made visible; one to the first byte, which leaves the tail byte
unaffected. -/
theorem witness_OneshotWithABrokenDutyKeepsItsStatus :
    ((({ bufferState .le with staged := [(0x1010, 0xFF)] } : State).latched 0x04).affected 0x1010 = true ∧
      (({ bufferState .le with staged := [(0x1010, 0xFF)] } : State).latched 0x04).unstableAt 0x1010 = false ∧
      (({ bufferState .le with staged := [(0x1000, 0xFF)] } : State).latched 0x04).affected 0x1010 = false) ∧
    ∀ s ∈ [({ bufferState .le with staged := [(0x1010, 0xFF)] } : State), { bufferState .le with staged := [(0x1000, 0xFF)] }],
      (s.latched (encode (.oneshot Width.w64.code))).srcAddr.toNat < 2 ^ addrWidth s.cfg ∧
      (s.latched (encode (.oneshot Width.w64.code))).srcAddr.toNat + (s.latched (encode (.oneshot Width.w64.code))).length.toNat ≤
        2 ^ addrWidth s.cfg ∧
      s.unanswered (s.latched (encode (.oneshot Width.w64.code))).srcAddr.toNat
        (s.latched (encode (.oneshot Width.w64.code))).length.toNat = false ∧
      (s.latched (encode (.oneshot Width.w64.code))).broken = true := by decide

/-- The last byte of the buffer lies in a region that does not answer. -/
def silentState : State := issued { bufferState .le with regions := [⟨0x1010, 1, .silent⟩] } 0x04

theorem witness_UnansweredReadKeepsTheCoreBusy :
    silentState.running = some ((bufferState .le).latch 0x04) ∧
      decode ((bufferState .le).latch 0x04).cw = .ok (.oneshot Width.w64.code) ∧
      ((bufferState .le).latch 0x04).srcAddr.toNat < 2 ^ addrWidth silentState.cfg ∧
      ((bufferState .le).latch 0x04).srcAddr.toNat + ((bufferState .le).latch 0x04).length.toNat ≤ 2 ^ addrWidth silentState.cfg ∧
      silentState.unanswered ((bufferState .le).latch 0x04).srcAddr.toNat ((bufferState .le).latch 0x04).length.toNat = true ∧
      silentState.events = [] := ⟨by decide, rfl, by decide, by decide, by decide, rfl⟩

/-- One byte at two addresses, in `IDLE` and in `DONE`. -/
def otherEdgeState : State := { doneState .le with length := 1, srcAddr := 0x20, mem := [(0x20, 0x41)] }

theorem witness_OneshotIsDeterministic :
    ∃ t t', edgeState.cfg = otherEdgeState.cfg ∧
      (edgeState.latched (encode (.oneshot Width.w128.code))).seed = (otherEdgeState.latched (encode (.oneshot Width.w128.code))).seed ∧
      (edgeState.latched (encode (.oneshot Width.w128.code))).length =
        (otherEdgeState.latched (encode (.oneshot Width.w128.code))).length ∧
      (edgeState.latched (encode (.oneshot Width.w128.code))).broken = false ∧
      (otherEdgeState.latched (encode (.oneshot Width.w128.code))).broken = false ∧
      (∀ k < (edgeState.latched (encode (.oneshot Width.w128.code))).length.toNat,
        edgeState.portByte ((edgeState.latched (encode (.oneshot Width.w128.code))).srcAddr.toNat + k) =
          otherEdgeState.portByte ((otherEdgeState.latched (encode (.oneshot Width.w128.code))).srcAddr.toNat + k)) ∧
      exec (.oneshot Width.w128.code) edgeState = .next t ∧ exec (.oneshot Width.w128.code) otherEdgeState = .next t' ∧
      t.running = none ∧ t'.running = none ∧ t.err = .ok ∧ t'.err = .ok :=
  ⟨_, _, rfl, by decide, by decide, by decide, by decide, by decide, rfl, rfl, by decide, by decide, by decide, by decide⟩

theorem witness_MixAHalvesAreIndependent :
    s0 ≠ { s0 with w2 := 0, w3 := 0 } ∧ s0.w0 = ({ s0 with w2 := 0, w3 := 0 } : Quad).w0 ∧
      s0.w1 = ({ s0 with w2 := 0, w3 := 0 } : Quad).w1 ∧ s0.w2 = ({ s0 with w0 := 0, w1 := 0 } : Quad).w2 ∧
      s0.w3 = ({ s0 with w0 := 0, w1 := 0 } : Quad).w3 := by decide

theorem witness_RotrMovesBitsDown : 1 ≤ 1 ∧ 1 ≤ 63 ∧ 63 ≤ 63 ∧ 0 < 64 ∧ 63 < 64 := by decide

theorem witness_ReadingBackWrittenBytesGivesTheWord : 0 < 8 ∧ 7 < 8 := by decide

theorem witness_DigestBytesLieInEndianOrder : 0 < 8 ∧ 7 < 8 ∧ Endian.le = .le ∧ (3 : Fin 4) ≠ 0 := by decide

theorem witness_TailMapHasItsClosedForm :
    0 < 15 ∧ 14 < 15 ∧ 15 ≤ 15 ∧ (tailMap ⟨.or, .xor, .add, .add, .add, .add, .add, .add, .add, .add, .add, .add, .xor⟩).map TailRow.op =
      [.add, .or, .xor, .add, .add, .add, .add, .add, .add, .add, .add, .add, .add, .add, .xor] := by decide

theorem witness_TailCascadeRunsDownwards : 0 ≤ 15 ∧ 15 ≤ 15 := by decide

/-- Beats of 0, 16, 5, 7 and 5 bytes. -/
def beats : List (List Byte) :=
  [[], (List.range 16).map (BitVec.ofNat 8), (List.range 5).map (BitVec.ofNat 8), (List.range 7).map (BitVec.ofNat 8),
   (List.range 5).map (BitVec.ofNat 8)]

theorem witness_ChunkingDoesNotMatter :
    (openState .be).phase = .opened ∧ (openState .be).lfill = 0 ∧ (openState .be).inner = false ∧ (openState .be).count = 0 ∧
      (openState .be).running = none ∧ ∀ c ∈ beats, c.length ≤ 16 := by decide

theorem witness_SessionDigestIsTheDigestOfItsBytes : (doneState .be).running = none ∧ ∀ c ∈ beats, c.length ≤ 16 := by decide

/-- Program P4 and program P2: 17 bytes as 5, 7, 5 and as a buffer. -/
theorem witness_SessionEqualsOneshotEqualsRainbow :
    ∀ chunks ∈ [[[0, 1, 2, 3, 4], [5, 6, 7, 8, 9, 10, 11], [12, 13, 14, 15, 16]]], ∀ s ∈ [openState .be], ∀ u ∈ [bufferState .be],
      s.running = none ∧ (∀ c ∈ (chunks : List (List Byte)), c.length ≤ 16) ∧ s.length = BitVec.ofNat 64 chunks.flatten.length ∧
      chunks.flatten.length < 2 ^ 64 ∧ u.running = none ∧ u.cfg = s.cfg ∧ u.seed = s.seed ∧ u.length = s.length ∧
      (∀ k < chunks.flatten.length, u.portByte (u.srcAddr.toNat + k) = chunks.flatten.getD k 0) ∧
      u.srcAddr.toNat < 2 ^ addrWidth u.cfg ∧ u.srcAddr.toNat + u.length.toNat ≤ 2 ^ addrWidth u.cfg ∧
      u.unanswered u.srcAddr.toNat u.length.toNat = false ∧ (u.latched (encode (.oneshot Width.w256.code))).broken = false := by decide

/-- Both ways in which the latency elapses, for a word that decodes and for one that does not. -/
theorem witness_StepPerformsTheIssuedCommand :
    (issued (openState .le) 0x03).running = some ((openState .le).latch 0x03) ∧ decode 0x03 = .ok .final ∧
      decode 0x06 = .error .badOp ∧ (issued (openState .le) 0x03).events = [] ∧
      ({ issued (openState .le) 0x06 with events := [.elapse, .fence] } : State).events = .elapse :: [.fence] ∧
      (issued (openState .le) 0x06).running = some ((openState .le).latch 0x06) :=
  ⟨by decide, rfl, rfl, rfl, rfl, by decide⟩

theorem witness_CtrlWriteIssuesACommand :
    ∀ s ∈ [({ doneState .le with events := [writeEvent (tc2 .le) .ctrl 0xFFFFFFFFFFFFFFFF] } : State)],
      s.running = none ∧ s.events = writeEvent s.cfg .ctrl 0xFFFFFFFFFFFFFFFF :: [] := by decide

/-- A dropped write; `OVR` rising by one; and falling by reset and by CLEAR. -/
theorem witness_CtrlWriteWhileBusyIsDropped :
    (∀ s ∈ [({ issued (openState .le) 0x03 with events := [writeEvent (tc2 .le) .ctrl 0x05] } : State)],
      s.running = some ((openState .le).latch 0x03) ∧ s.events = writeEvent s.cfg .ctrl 0x05 :: []) ∧
    (∃ t, step { issued (openState .le) 0x03 with program := [.write .ctrl 0x05], events := [.host] } = .next t ∧
      (issued (openState .le) 0x03).ovr = false ∧ t.ovr = true) ∧
    (∃ t, step { openState .le with ovr := true, events := [.reset] } = .next t ∧ t.ovr = false) ∧
      ∃ t, step { issued (openState .le) 0x05 with ovr := true } = .next t ∧ t.ovr = false :=
  ⟨by decide, ⟨_, rfl, by decide, by decide⟩, ⟨_, rfl, by decide⟩, ⟨_, rfl, by decide⟩⟩

/-- Stores at both ends of the buffer of a running command, one past it, the last byte of the space and one past that; a map with
side effects at the last byte of the buffer. -/
theorem witness_StoresAndMapsMarkTheRunningCommand :
    (∀ a ∈ [0x1000, 0x1010, 0x1011, 0xFFFFFFFF],
      ({ issued (bufferState .le) 0x24 with events := [.store a 1] } : State).events = .store a 1 :: [] ∧
        a < 2 ^ addrWidth (issued (bufferState .le) 0x24).cfg) ∧
    ({ bufferState .le with events := [.store 0x100000000 1] } : State).events = .store 0x100000000 1 :: [] ∧
      2 ^ addrWidth (bufferState .le).cfg ≤ 0x100000000 ∧
    (issued (bufferState .le) 0x24).running = some ((bufferState .le).latch 0x24) ∧ (bufferState .le).running = none ∧
    ({ issued (bufferState .le) 0x24 with events := [.remap [⟨0x1010, 1, .sideEffect⟩]] } : State).events =
      .remap [⟨0x1010, 1, .sideEffect⟩] :: [] := by decide

/-- The marks those give, by evaluation: broken at 0x1000 and 0x1010, not at 0x1011; broken by the map. -/
theorem test_marks :
    ([Event.store 0x1000 1, .store 0x1010 1, .store 0x1011 1, .remap [⟨0x1010, 1, .sideEffect⟩], .remap [⟨0x1011, 1, .sideEffect⟩],
      .remap [⟨0x1010, 1, .silent⟩]].map
        (fun e => (nextOf (step { issued (bufferState .le) 0x24 with events := [e] })).map (fun t => t.running.map Latched.broken))) =
      [some (some true), some (some true), some (some false), some (some true), some (some false), some (some false)] := by decide

/-- 20_memory.md R66 with 43_commands.md R173: a store to the first byte alone leaves the tail byte, at 0x1010, as it is in the
buffer; one to the tail byte leaves one of the two values it held. -/
theorem test_unaffected_tail_byte :
    (nextOf (exec (.oneshot 2) { bufferState .le with staged := [(0x1000, 0xFF)] })).map (fun t => (t.lbufByte 0, t.lbufByte 1)) =
      some (0x10, 0) := by decide

theorem test_affected_tail_byte :
    (({ bufferState .le with staged := [(0x1010, 0xFF)] } : State).latch 0x24).heldAt 0x1010 = [0x10, 0xFF] := by decide

theorem witness_OperandWritesDoNotTouchTheRunningCommand :
    ∃ t, (issued (bufferState .le) 0x24).running = some ((bufferState .le).latch 0x24) ∧
      exec (.oneshot 2) (issued (bufferState .le) 0x24) = .next t := ⟨_, by decide, rfl⟩

/-- A stored register and a read-only one. -/
theorem witness_OperandRegistersStoreTheirWrites :
    ∀ r ∈ [Reg.seed, Reg.length, Reg.srcAddr, Reg.din0, Reg.din1, Reg.status, Reg.dout3],
      ({ issued (openState .le) 0x03 with events := [writeEvent (tc2 .le) r 5] } : State).events =
        writeEvent (issued (openState .le) 0x03).cfg r 5 :: [] ∧ r ≠ .ctrl := by decide

theorem witness_IdleReadsReturnTheRegisters :
    ∀ off ∈ [0x00, 0x08, 0x10, 0x18, 0x20, 0x28, 0x30, 0x38, 0x40, 0x48, 0x50, 0x58, 0x60, 0x68, 0x70, 0x78],
      (doneState .le).running = none ∧ off < 0x80 ∧ off % 8 = 0 ∧
      ({ doneState .le with events := [.read (regBase (tc2 .le) + off) 8] } : State).events =
        .read (regBase (doneState .le).cfg + off) 8 :: [] := by decide

/-- The offset of each clause, and both ends of the reserved ones. -/
theorem witness_BusyReadsKeepTheirFixedParts :
    ∀ off ∈ [0x00, 0x08, 0x10, 0x18, 0x20, 0x28, 0x30, 0x38, 0x80, 0xF8],
      (issued (openState .le) 0x03).running = some ((openState .le).latch 0x03) ∧ off < 256 ∧ off % 8 = 0 ∧
      ({ issued (openState .le) 0x03 with events := [.read (regBase (tc2 .le) + off) 8] } : State).events =
        .read (regBase (issued (openState .le) 0x03).cfg + off) 8 :: [] := by decide

theorem witness_ReservedOffsetsReadZeroIgnoreWrites :
    ∀ off ∈ [0x80, 0xF8], 0x80 ≤ off ∧ off < 256 ∧ off % 8 = 0 ∧
      ({ doneState .le with events := [.read (regBase (tc2 .le) + off) 8] } : State).events =
        .read (regBase (doneState .le).cfg + off) 8 :: [] ∧
      ({ doneState .le with events := [.write (regBase (tc2 .le) + off) 8 1] } : State).events =
        .write (regBase (doneState .le).cfg + off) 8 1 :: [] := by decide

/-- A narrow access, a wide one, and misaligned ones at both ends of the window. -/
theorem witness_NarrowOrMisalignedAccessIsRefused :
    ∀ x ∈ [(0, 4), (8, 16), (1, 8), (255, 8)], x.1 < 256 ∧ (x.2 ≠ 8 ∨ x.1 % 8 ≠ 0) ∧
      ({ doneState .le with events := [.read (regBase (tc2 .le) + x.1) x.2] } : State).events =
        .read (regBase (doneState .le).cfg + x.1) x.2 :: [] ∧
      ({ doneState .le with events := [.write (regBase (tc2 .le) + x.1) x.2 1] } : State).events =
        .write (regBase (doneState .le).cfg + x.1) x.2 1 :: [] := by decide

theorem witness_FeedPacksTheChunk :
    ((List.range 16).map (BitVec.ofNat 8)).length ≤ 16 ∧ ([] : List Byte).length ≤ 16 ∧ 0 < 16 ∧ 15 < 16 := by decide

/-- Each shape of a program's head; the `wait` with and without a running command. -/
theorem witness_HostTurnsPerformTheProgram :
    (∀ p ∈ [[], [Access.write .ctrl 0x05], [.read .count], [.wait, .read .dout0]],
      ({ doneState .le with program := p, events := [.host] } : State).events = .host :: []) ∧
    (doneState .le).busy = false ∧ (issued (openState .le) 0x03).busy = true := by decide

theorem witness_ResetSetsEveryElement :
    ({ issued (openState .le) 0x03 with events := [.reset, .elapse] } : State).events = .reset :: [.elapse] := by rfl

/-- A state inside a session, with a byte in the buffer space and one staged; the step completes an ABSORB. -/
theorem witness_EveryStepKeepsTheInvariant :
    ∃ t, State.Inv { issued partState 0x1002 with mem := [(3, 1)], staged := [(0xFFFFFFFF, 2)] } ∧
      step { issued partState 0x1002 with mem := [(3, 1)], staged := [(0xFFFFFFFF, 2)] } = .next t :=
  ⟨_, ⟨by decide, by unfold addressesExist; decide, by unfold addressesExist; decide, by decide, by decide,
    fun h => absurd h (by decide), fun _ => rfl⟩, rfl⟩

theorem witness_BuildParametersNeverChange : ∃ t, step { issued partState 0x1002 with events := [.reset] } = .next t := ⟨_, rfl⟩

/-- A command, and a fence that changes a byte. -/
theorem witness_CoreNeverWritesTheBufferSpace :
    (∃ t, exec (.oneshot 2) (bufferState .le) = .next t) ∧
      ∃ t, step { bufferState .le with staged := [(0x1000, 0xFF)], events := [.fence] } = .next t ∧
        t.portByte 0x1000 ≠ (bufferState .le).portByte 0x1000 := ⟨⟨_, rfl⟩, _, rfl, by decide⟩

theorem witness_FenceMakesTheStoresVisible :
    ({ bufferState .le with staged := [(0x1000, 0xFF), (0x1000, 0xFE)], events := [.fence] } : State).events = .fence :: [] ∧
      Memory.wf (bufferState .le).mem := ⟨rfl, by decide⟩

/-- By reset, and by the completion of an INIT. -/
theorem witness_OnlyTheListedOperationsWriteH :
    (∃ t, step { openState .le with events := [.reset] } = .next t ∧ t.h ≠ (openState .le).h) ∧
      ∃ t, step (issued (idleState .le) 0x01) = .next t ∧ t.h ≠ (idleState .le).h ∧ t.err = .ok ∧ t.running = none :=
  ⟨⟨_, rfl, by decide⟩, ⟨_, rfl, by decide, by decide, by decide⟩⟩

/-- By reset, and by the completion of an ABSORB that fills a lane. -/
theorem witness_OnlyLanesInitAndClearChangeInner :
    (∃ t, step { partState with inner := true, events := [.reset] } = .next t ∧ t.inner ≠ true) ∧
      ∃ t, step (issued partState 0x402) = .next t ∧ t.inner ≠ partState.inner :=
  ⟨⟨_, rfl, by decide⟩, ⟨_, rfl, by decide⟩⟩

theorem witness_EveryAnsweredCommandEnds :
    (issued (bufferState .le) 0x24).running = some ((bufferState .le).latch 0x24) ∧
      (issued (bufferState .le) 0x24).unanswered ((bufferState .le).latch 0x24).srcAddr.toNat
        ((bufferState .le).latch 0x24).length.toNat = false ∧
      (issued (bufferState .le) 0x24).events = [] := by decide

/-- It rises at a write to `CTRL`; it falls at a completion and at a reset. -/
theorem witness_BusyRisesAtIssueAndFallsAtCompletion :
    (∃ t, step { idleState .le with events := [writeEvent (tc2 .le) .ctrl 0] } = .next t ∧ t.busy = true) ∧
      (∃ t, step (issued (idleState .le) 0) = .next t ∧ t.busy = false) ∧
      (idleState .le).busy = false ∧ (issued (idleState .le) 0).busy = true :=
  ⟨⟨_, rfl, by decide⟩, ⟨_, rfl, by decide⟩, by decide, by decide⟩

end Sys2Proof.Tests
end

section
/-! Words and bytes: rotation (00_scope.md R9), and the byte orders of `rd64` and `wr64` (R10). -/

namespace Sys2Proof.Machine

theorem rotr_getLsbD (x : Word) {k j : Nat} (hk : k < 64) (hj : j < 64) :
    (rotr x k).getLsbD j = x.getLsbD ((j + k) % 64) := by
  rw [rotr_eq_rotateRight x hk, BitVec.getLsbD_rotateRight, Nat.mod_eq_of_lt hk]
  by_cases hwrap : j < 64 - k
  · simp [hwrap, show (j + k) % 64 = k + j by omega]
  · simp [hwrap, hj, show (j + k) % 64 = j - (64 - k) by omega]

/-- Settles O28: the formula is the definition, and each bit is the one that the library's rotate puts there. -/
theorem rotrMovesBitsDown : Obligations.RotrMovesBitsDown := by
  intro x k _ hk
  exact ⟨rfl, fun j hj => rotr_getLsbD x (by omega) hj⟩

/-- The sum of R10 written out. -/
theorem packBytes_eight (b : Nat → Byte) :
    packBytes b 8 =
      (b 0).setWidth 64 + ((b 1).setWidth 64 <<< 8) + ((b 2).setWidth 64 <<< 16) + ((b 3).setWidth 64 <<< 24) +
        ((b 4).setWidth 64 <<< 32) + ((b 5).setWidth 64 <<< 40) + ((b 6).setWidth 64 <<< 48) +
        ((b 7).setWidth 64 <<< 56) := by
  simp [packBytes]

/-- Reading back a written word: in big-endian order the two reversals of the byte index cancel. -/
theorem rd64_wr64 (e : Endian) (g : Word) : rd64 e (wr64 e g) = g := by
  cases e with
  | le => exact packBytes_byteOf g
  | be =>
    calc packBytes (fun k => byteOf g (7 - (7 - k))) 8
      _ = packBytes (byteOf g) 8 := packBytes_congr fun k hk => by rw [show 7 - (7 - k) = k by omega]
      _ = g := packBytes_byteOf g

theorem wr64_rd64 (e : Endian) (b : Nat → Byte) {k : Nat} (hk : k < 8) : wr64 e (rd64 e b) k = b k := by
  cases e with
  | le => exact byteOf_packBytes b (Nat.le_refl 8) hk
  | be =>
    calc byteOf (packBytes (fun j => b (7 - j)) 8) (7 - k)
      _ = b (7 - (7 - k)) := byteOf_packBytes _ (Nat.le_refl 8) (by omega)
      _ = b k := by rw [show 7 - (7 - k) = k by omega]

/-- Settles O29: the formulas are the sum written out in the two byte orders, and each inverse law is the one of packing and
unpacking. -/
theorem readingBackWrittenBytesGivesTheWord : Obligations.ReadingBackWrittenBytesGivesTheWord :=
  ⟨fun b => ⟨packBytes_eight b, packBytes_eight fun k => b (7 - k)⟩, fun _ _ _ => ⟨rfl, rfl⟩, rd64_wr64,
    fun e b _ hk => wr64_rd64 e b hk⟩

end Sys2Proof.Machine
end

section
/-! The state's own laws (10_state.md): the reset values (R40), the layout of `STATUS` (R35), the packing of `DIN0` and `DIN1`
(R33; 30_encoding.md R90), and which steps write `H` (R21) and `INNER` (R24). -/

namespace Sys2Proof.Machine

/-! ### Reset -/

@[simp] theorem State.reset_lbufByte (k : Nat) : State.reset.lbufByte k = 0 := by
  simp only [State.lbufByte, State.reset, Vector.getElem?_replicate]
  split <;> rfl

/-- Settles O50: all but `LBUF` is written out in the definition of the reset state. -/
theorem resetValuesAreTheSpecs : Obligations.ResetValuesAreTheSpecs :=
  ⟨rfl, rfl, rfl, fun k _ => State.reset_lbufByte k, rfl, rfl, rfl, rfl, rfl, rfl, rfl, rfl, rfl, rfl, rfl, rfl, rfl⟩

/-! ### The layout of STATUS -/

/-- A field is read back at its own bits. -/
theorem extractLsb'_fieldAt_same {n : Nat} (v : BitVec n) {lo : Nat} (h : lo + n ≤ 64) :
    (fieldAt v lo).extractLsb' lo n = v := by
  apply BitVec.eq_of_getLsbD_eq
  intro i hi
  simp [fieldAt, hi, show lo + i < 64 by omega]

/-- A field has no bit in a range of bits that lies below it or above it. -/
theorem extractLsb'_fieldAt_disjoint {n : Nat} (v : BitVec n) {lo lo' n' : Nat} (h : lo' + n' ≤ lo ∨ lo + n ≤ lo') :
    (fieldAt v lo).extractLsb' lo' n' = 0#n' := by
  apply BitVec.eq_of_getLsbD_eq
  intro i hi
  simp only [fieldAt, BitVec.getLsbD_extractLsb', BitVec.getLsbD_shiftLeft, BitVec.getLsbD_setWidth, BitVec.getLsbD_zero]
  rcases h with h | h
  · simp [show lo' + i < lo by omega]
  · simp [BitVec.getLsbD_of_ge v (lo' + i - lo) (by omega)]

/-- Settles O48: the fields do not overlap, so each range of bits shows its own field, or 0 where there is none. -/
theorem statusFieldsLieAtTheirBits : Obligations.StatusFieldsLieAtTheirBits := by
  refine ⟨⟨rfl, rfl, rfl⟩, ⟨rfl, rfl, rfl⟩, ⟨rfl, rfl, rfl, rfl, rfl, rfl, rfl⟩, fun s => ?_⟩
  simp (disch := decide) only [State.status, BitVec.extractLsb'_or, extractLsb'_fieldAt_same, extractLsb'_fieldAt_disjoint,
    BitVec.or_zero, BitVec.zero_or]
  simp

/-! ### The packing of DIN0 and DIN1 -/

theorem dataByte_eq_extractLsb' (d0 d1 : Word) {k : Nat} (hk : k < 16) :
    dataByte d0 d1 k = (if k / 8 = 0 then d0 else d1).extractLsb' (8 * (k % 8)) 8 := by
  unfold dataByte byteOf
  by_cases h : k < 8
  · rw [if_pos h, if_pos (by omega), Nat.mod_eq_of_lt h]
  · rw [if_neg h, if_neg (by omega), show k % 8 = k - 8 by omega]

/-- Every byte of a packed word is the byte packed there, where the bytes past the packed ones are 0. -/
theorem byteOf_packBytes_of_zero_above {b : Nat → Byte} {n k : Nat} (hn : n ≤ 8) (hz : n ≤ k → b k = 0) :
    byteOf (packBytes b n) k = b k := by
  by_cases hk : k < n
  · exact byteOf_packBytes b hn hk
  · rw [hz (by omega)]
    apply BitVec.eq_of_getLsbD_eq
    intro i _
    simp [byteOf, packBytes_getLsbD b hn, show ¬8 * k + i < 8 * n by omega]

/-- The two words that `feed` writes hold the chunk, and 0 past it (30_encoding.md R90). -/
theorem dataByte_feed {bytes : List Byte} (hb : bytes.length ≤ 16) {k : Nat} (hk : k < 16) :
    dataByte (feedLow bytes) (feedHigh bytes) k = bytes.getD k 0 := by
  unfold dataByte
  by_cases h : k < 8
  · rw [if_pos h]
    exact byteOf_packBytes_of_zero_above (Nat.min_le_right ..) fun _ => List.getD_eq_default _ _ (by omega)
  · have hk8 : 8 + (k - 8) = k := by omega
    calc (if k < 8 then byteOf (feedLow bytes) k else byteOf (feedHigh bytes) (k - 8))
      _ = byteOf (feedHigh bytes) (k - 8) := if_neg h
      _ = bytes.getD (8 + (k - 8)) 0 :=
        byteOf_packBytes_of_zero_above (by omega) fun _ => List.getD_eq_default _ _ (by omega)
      _ = bytes.getD k 0 := by rw [hk8]

/-- The command word of an ABSORB: `0x02` and the count at bit 8 (30_encoding.md R81). -/
theorem encode_absorb (n : BitVec 5) : encode (.absorb n) = BitVec.ofNat 64 (0x02 + 256 * n.toNat) := by revert n; decide

/-- Settles O49: the count of a chunk fits the five bits of `N`, and each word `feed` writes packs its half of the chunk. -/
theorem feedPacksTheChunk : Obligations.FeedPacksTheChunk := by
  refine ⟨fun d0 d1 _ hk => dataByte_eq_extractLsb' d0 d1 hk, fun bytes hb => ⟨?_, fun _ hk => dataByte_feed hb hk⟩⟩
  have hn : (BitVec.ofNat 5 bytes.length).toNat = bytes.length := Nat.mod_eq_of_lt (by omega)
  simp [programAccesses, Stmt.expand, Stmt.accesses, encode_absorb, hn]

/-! ### What only a completion or a reset writes -/

/-- The elements of the core (10_state.md R40) without the host operand registers, `BUSY` and `OVR`: those that no host access,
store, fence or new platform map writes. -/
structure SessionPart where
  h : Quad
  sseed : Word
  inner : Bool
  lbuf : Vector Byte 16
  lfill : Fin 16
  count : Word
  width : Width
  phase : Phase
  err : ResultCode
  dout : Quad

/-- Those elements of a state. -/
def State.sessionPart (s : State) : SessionPart :=
  ⟨s.h, s.sseed, s.inner, s.lbuf, s.lfill, s.count, s.width, s.phase, s.err, s.dout⟩

theorem State.readReg_sessionPart (s : State) (r : Reg) : (s.readReg r).sessionPart = s.sessionPart := by
  obtain ⟨v, d, hr⟩ := s.readReg_changes r
  rw [hr]
  rfl

theorem State.hostRead_sessionPart (s : State) (off : Nat) : (s.hostRead off).sessionPart = s.sessionPart := by
  obtain ⟨v, d, hr⟩ := s.hostRead_changes off
  rw [hr]
  rfl

theorem State.writeReg_sessionPart (s : State) (r : Reg) (v : Word) : (s.writeReg r v).sessionPart = s.sessionPart := by
  rcases s.writeReg_cases r v with hw | ⟨-, -, hw⟩ | ⟨-, -, hw⟩ | ⟨a, b, c, d, e, hw⟩ <;> rw [hw] <;> rfl

theorem State.hostWrite_sessionPart (s : State) (off : Nat) (v : Word) : (s.hostWrite off v).sessionPart = s.sessionPart := by
  unfold State.hostWrite
  split
  · exact s.writeReg_sessionPart _ v
  · rfl

theorem State.hostTurn_sessionPart (s : State) : s.hostTurn.sessionPart = s.sessionPart := by
  rcases s.hostTurn_cases with ⟨-, ht⟩ | ⟨r, v, p, -, ht⟩ | ⟨r, p, -, ht⟩ | ⟨p, q, -, ht⟩ <;> rw [ht]
  · exact State.writeReg_sessionPart { s with program := p } r v
  · exact State.readReg_sessionPart { s with program := p } r
  · exact s.readReg_sessionPart .status

/-- A step that writes one of these elements is a reset or performs the running command (43_commands.md R162;
70_reset_and_hazards.md R230). -/
theorem step_sessionPart_cases {s t : State} (h : step s = .next t) :
    t.sessionPart = s.sessionPart ∨ (∃ rest, s.events = .reset :: rest) ∨
      (s.timePasses ∧ ∃ l, s.running = some l ∧ State.perform { s with events := s.events.tail } l = .next t) := by
  rcases step_next_cases h with ⟨-, -, rfl⟩ | hp | ⟨rest, -, rfl⟩ | ⟨off, rest, -, -, -, rfl⟩ |
    ⟨off, v, rest, -, -, -, rfl⟩ | ⟨a, v, rest, -, -, rfl⟩ | ⟨rest, -, rfl⟩ | ⟨rs, rest, -, rfl⟩ | ⟨rest, he, -⟩
  · exact .inl rfl
  · exact .inr (.inr hp)
  · exact .inl (State.hostTurn_sessionPart _)
  · exact .inl (State.hostRead_sessionPart _ off)
  · exact .inl (State.hostWrite_sessionPart _ off v)
  · exact .inl rfl
  · exact .inl rfl
  · exact .inl rfl
  · exact .inr (.inl ⟨rest, he⟩)

/-! ### The writers of H and INNER -/

/-- A command that writes `H` or `INNER` is no NOP and completes accepted; FINAL writes no `INNER` (10_state.md R21, R24). -/
theorem exec_hash_cases {i : Instr} {s t : State} (h : exec i s = .next t) :
    (t.h = s.h ∧ t.inner = s.inner) ∨
      (i ≠ .nop ∧ t.err = .ok ∧ t.running = none ∧ (i = .final → t.inner = s.inner)) := by
  rcases exec_next_cases h with ⟨c, -, rfl⟩ | ⟨-, rfl⟩ | ⟨w, wd, rfl, -, rfl⟩ | ⟨n, rfl, -, -, rfl⟩ | ⟨rfl, -, rfl⟩ |
    ⟨-, -, rfl⟩ | ⟨w, wd, rfl, -, -, ⟨-, rfl⟩ | ⟨-, -, rfl⟩ | ⟨-, -, rfl⟩⟩ | ⟨rfl, rfl⟩
  · exact .inl ⟨rfl, rfl⟩
  · exact .inl ⟨rfl, rfl⟩
  · exact .inr ⟨nofun, rfl, rfl, nofun⟩
  · exact .inr ⟨nofun, rfl, rfl, nofun⟩
  · exact .inr ⟨nofun, rfl, rfl, fun _ => rfl⟩
  · exact .inl ⟨rfl, rfl⟩
  · exact .inl ⟨rfl, rfl⟩
  · exact .inr ⟨nofun, rfl, rfl, nofun⟩
  · exact .inr ⟨nofun, rfl, rfl, nofun⟩
  · exact .inr ⟨nofun, rfl, rfl, nofun⟩

/-- What a step does to `H` and `INNER`: nothing, or it is a reset, or an accepted command completes (10_state.md R21, R24). -/
theorem step_hash_cases {s t : State} (h : step s = .next t) :
    (t.h = s.h ∧ t.inner = s.inner) ∨ (∃ rest, s.events = .reset :: rest) ∨
      ∃ l i, s.running = some l ∧ decode l.cw = .ok i ∧ i ≠ .nop ∧ t.err = .ok ∧ t.running = none ∧ s.timePasses ∧
        (i = .final → t.inner = s.inner) := by
  rcases step_sessionPart_cases h with hk | hr | ⟨ht, l, hl, hp⟩
  · exact .inl ⟨congrArg SessionPart.h hk, congrArg SessionPart.inner hk⟩
  · exact .inr (.inl hr)
  · rcases perform_next_cases hp with ⟨e, -, rfl⟩ | ⟨i, hi, hx⟩
    · exact .inl ⟨rfl, rfl⟩
    · rcases exec_hash_cases hx with hk | ⟨hn, he, hb, hf⟩
      · exact .inl hk
      · exact .inr (.inr ⟨l, i, hl, hi, hn, he, hb, ht, hf⟩)

/-- Settles O57: a step that keeps `H` is ruled out, and what is left is a reset or an accepted completion. -/
theorem onlyTheListedOperationsWriteH : Obligations.OnlyTheListedOperationsWriteH := by
  intro s t h hne
  rcases step_hash_cases h with ⟨hh, -⟩ | hr | ⟨l, i, hl, hi, hn, he, hb, ht, -⟩
  · exact absurd hh hne
  · exact .inl hr
  · exact .inr ⟨l, i, hl, hi, hn, he, hb, ht⟩

/-- Settles O58: the same cases, and the command is not FINAL, which keeps `INNER`. -/
theorem onlyLanesInitAndClearChangeInner : Obligations.OnlyLanesInitAndClearChangeInner := by
  intro s t h hne
  rcases step_hash_cases h with ⟨-, hh⟩ | hr | ⟨l, i, hl, hi, hn, he, hb, ht, hf⟩
  · exact absurd hh hne
  · exact .inl hr
  · exact .inr ⟨l, i, hl, hi, hn, fun hfin => hne (hf hfin), he, hb, ht⟩

end Sys2Proof.Machine
end

section
/-! The address spaces of the core (20_memory.md): the register window (R50 to R54), the input buffer space and the fence (R56,
R66), the host's duties on a buffer (R66) and the reads that are never answered (R63). -/

namespace Sys2Proof.Machine

/-! ### Reads and writes in the register window -/

/-- The registers fill the offsets below 0x80 (20_memory.md R51). -/
theorem Reg.exists_offset_eq {off : Nat} (h : off < 0x80) (h8 : off % 8 = 0) : ∃ r : Reg, r.offset = off := by
  have hall : ∀ o < 0x80, o % 8 = 0 → ∃ r ∈ Reg.all, r.offset = o := by decide
  obtain ⟨r, -, hr⟩ := hall off h h8
  exact ⟨r, hr⟩

theorem Reg.eq_of_offset_eq {r r' : Reg} (h : r.offset = r'.offset) : r = r' :=
  Option.some.inj <| calc
    some r = regAt r.offset := (regAt_offset r).symm
    _ = regAt r'.offset := by rw [h]
    _ = some r' := regAt_offset r'

/-- While no command runs, a read of a register returns its value and draws nothing (43_commands.md R177). -/
theorem State.hostRead_offset_of_idle {s : State} (h : s.running = none) (r : Reg) :
    s.hostRead r.offset = { s with rdata := s.regValue r } := by
  simp [State.hostRead, State.readReg, State.busy, h]

/-- No register shows the schedule. -/
theorem State.regValue_events (s : State) (rest : List Event) (r : Reg) :
    State.regValue { s with events := rest } r = s.regValue r := by cases r <;> rfl

theorem step_read_of_idle {s : State} {r : Reg} {rest : List Event} (h : s.running = none)
    (he : s.events = .read (regBase s.cfg + r.offset) 8 :: rest) :
    step s = .next { s with events := rest, rdata := s.regValue r } := by
  obtain ⟨hlt, h8⟩ := r.offset_whole
  rw [step_read he hlt h8, State.hostRead_offset_of_idle (s := { s with events := rest }) h, State.regValue_events]

/-- A reserved offset reads 0 (20_memory.md R53). -/
theorem State.hostRead_reserved (s : State) {off : Nat} (h : 0x80 ≤ off) : s.hostRead off = { s with rdata := 0 } := by
  unfold State.hostRead
  rw [regAt_reserved h]

/-- A reserved offset ignores a write (20_memory.md R53). -/
theorem State.hostWrite_reserved (s : State) {off : Nat} (v : Word) (h : 0x80 ≤ off) : s.hostWrite off v = s := by
  unfold State.hostWrite
  rw [regAt_reserved h]

/-- Settles O44: the offset is that of one register, and the read returns that register's value. -/
theorem idleReadsReturnTheRegisters : Obligations.IdleReadsReturnTheRegisters := by
  refine ⟨⟨rfl, rfl, rfl, rfl, rfl, rfl, rfl, rfl, rfl, rfl, rfl, rfl, rfl, rfl, rfl, rfl⟩, ?_⟩
  intro s off rest hidle hlt h8 he
  obtain ⟨r, rfl⟩ := Reg.exists_offset_eq hlt h8
  have value (r' : Reg) (h : r.offset = r'.offset) : s.regValue r = s.regValue r' := by rw [Reg.eq_of_offset_eq h]
  exact ⟨s.regValue r, step_read_of_idle hidle he, value .ctrl, value .status, value .seed, value .length,
    value .srcAddr, value .din0, value .din1, value .count, value .h0, value .h1, value .h2, value .h3, value .dout0,
    value .dout1, value .dout2, value .dout3⟩

/-- Settles O46: no register lies at the offset. -/
theorem reservedOffsetsReadZeroIgnoreWrites : Obligations.ReservedOffsetsReadZeroIgnoreWrites := by
  intro s off v rest hres hlt h8
  refine ⟨fun he => ?_, fun he => ?_⟩
  · rw [step_read he hlt h8, State.hostRead_reserved _ hres]
  · rw [step_write he hlt h8, State.hostWrite_reserved _ v hres]

/-- Settles O47: the access lies in the window and is not whole. -/
theorem narrowOrMisalignedAccessIsRefused : Obligations.NarrowOrMisalignedAccessIsRefused := by
  intro s off size v rest hlt hbad
  have hwin : windowOffset s.cfg (regBase s.cfg + off) = some off := windowOffset_eq_some.mpr ⟨rfl, hlt⟩
  have hwhole : wholeAccess off size = false := Bool.eq_false_iff.mpr fun h => by
    obtain ⟨hsize, h8⟩ := wholeAccess_iff.mp h
    omega
  refine ⟨fun he => ?_, fun he => ?_⟩
  · simp [step_of_cons he, State.handle, State.busRead, hwin, hwhole]
  · simp [step_of_cons he, State.handle, State.busWrite, hwin, hwhole]

/-! ### What only a store, a fence or a new map writes -/

/-- The build and the platform's side of the absorber's read port: what no host access and no command writes. -/
structure Surroundings where
  cfg : Config
  mem : Memory
  staged : List Host.Cell
  regions : List Region

/-- Those elements of a state. -/
def State.surroundings (s : State) : Surroundings := ⟨s.cfg, s.mem, s.staged, s.regions⟩

theorem State.readReg_surroundings (s : State) (r : Reg) : (s.readReg r).surroundings = s.surroundings := by
  obtain ⟨v, d, hr⟩ := s.readReg_changes r
  rw [hr]
  rfl

theorem State.hostRead_surroundings (s : State) (off : Nat) : (s.hostRead off).surroundings = s.surroundings := by
  obtain ⟨v, d, hr⟩ := s.hostRead_changes off
  rw [hr]
  rfl

theorem State.writeReg_surroundings (s : State) (r : Reg) (v : Word) : (s.writeReg r v).surroundings = s.surroundings := by
  rcases s.writeReg_cases r v with hw | ⟨-, -, hw⟩ | ⟨-, -, hw⟩ | ⟨a, b, c, d, e, hw⟩ <;> rw [hw] <;> rfl

theorem State.hostWrite_surroundings (s : State) (off : Nat) (v : Word) :
    (s.hostWrite off v).surroundings = s.surroundings := by
  rcases s.hostWrite_cases off v with hw | ⟨-, -, hw⟩ | ⟨-, -, hw⟩ | ⟨a, b, c, d, e, hw⟩ <;> rw [hw] <;> rfl

theorem State.hostTurn_surroundings (s : State) : s.hostTurn.surroundings = s.surroundings := by
  rcases s.hostTurn_cases with ⟨-, ht⟩ | ⟨r, v, p, -, ht⟩ | ⟨r, p, -, ht⟩ | ⟨p, q, -, ht⟩ <;> rw [ht]
  · exact State.writeReg_surroundings { s with program := p } r v
  · exact State.readReg_surroundings { s with program := p } r
  · exact s.readReg_surroundings .status

theorem exec_surroundings {i : Instr} {s t : State} (h : exec i s = .next t) : t.surroundings = s.surroundings := by
  obtain ⟨hcfg, -, -, -, -, -, hmem, hstaged, hregions, -, -⟩ := exec_frame h
  simp only [State.surroundings, hcfg, hmem, hstaged, hregions]

theorem perform_surroundings {l : Latched} {s t : State} (h : s.perform l = .next t) : t.surroundings = s.surroundings := by
  rcases perform_next_cases h with ⟨e, -, rfl⟩ | ⟨i, -, hx⟩
  · rfl
  · exact exec_surroundings hx

/-- What a step does to the build and the platform's side: a store is staged, a fence empties the staged stores into the memory, a
new map replaces the old one, and nothing else writes there (20_memory.md R56, R63, R66). -/
theorem step_surroundings_cases {s t : State} (h : step s = .next t) :
    t.surroundings = s.surroundings ∨
      (∃ a v rest, s.events = .store a v :: rest ∧
        t.surroundings = { s.surroundings with staged := s.staged ++ [(a, v)] }) ∨
      (∃ rest, s.events = .fence :: rest ∧
        t.surroundings = { s.surroundings with mem := s.fenceStores.mem, staged := [] }) ∨
      (∃ rs rest, s.events = .remap rs :: rest ∧ t.surroundings = { s.surroundings with regions := rs }) := by
  rcases step_next_cases h with ⟨-, -, rfl⟩ | ⟨-, l, -, hp⟩ | ⟨rest, -, rfl⟩ | ⟨off, rest, -, -, -, rfl⟩ |
    ⟨off, v, rest, -, -, -, rfl⟩ | ⟨a, v, rest, he, -, rfl⟩ | ⟨rest, he, rfl⟩ | ⟨rs, rest, he, rfl⟩ | ⟨rest, -, rfl⟩
  · exact .inl rfl
  · exact .inl (perform_surroundings (s := { s with events := s.events.tail }) hp)
  · exact .inl (State.hostTurn_surroundings _)
  · exact .inl (State.hostRead_surroundings _ off)
  · exact .inl (State.hostWrite_surroundings _ off v)
  · exact .inr (.inl ⟨a, v, rest, he, rfl⟩)
  · exact .inr (.inr (.inl ⟨rest, he, rfl⟩))
  · exact .inr (.inr (.inr ⟨rs, rest, he, rfl⟩))
  · exact .inl rfl

/-- Settles O54: none of those steps writes the build. -/
theorem buildParametersNeverChange : Obligations.BuildParametersNeverChange := by
  intro s t h
  rcases step_surroundings_cases h with hs | ⟨a, v, rest, -, hs⟩ | ⟨rest, -, hs⟩ | ⟨rs, rest, -, hs⟩ <;>
    exact congrArg Surroundings.cfg hs

/-- The read port shows the listed memory. -/
theorem State.portByte_of_mem_eq {s t : State} (h : t.mem = s.mem) (a : Nat) : t.portByte a = s.portByte a := by
  simp only [State.portByte, h]

/-- Settles O55: a command keeps the platform's side, and of the steps that write there only the fence writes the memory. -/
theorem coreNeverWritesTheBufferSpace : Obligations.CoreNeverWritesTheBufferSpace := by
  refine ⟨fun s t i h => ?_, fun s t a h hne => ?_⟩
  · have hs := exec_surroundings h
    have hmem : t.mem = s.mem := congrArg Surroundings.mem hs
    exact ⟨hmem, congrArg Surroundings.staged hs, State.portByte_of_mem_eq hmem⟩
  · have hmem : t.mem ≠ s.mem := fun hmem => hne (State.portByte_of_mem_eq hmem a)
    rcases step_surroundings_cases h with hs | ⟨a, v, rest, -, hs⟩ | ⟨rest, he, -⟩ | ⟨rs, rest, -, hs⟩
    · exact absurd (congrArg Surroundings.mem hs) hmem
    · exact absurd (congrArg Surroundings.mem hs) hmem
    · exact ⟨rest, he⟩
    · exact absurd (congrArg Surroundings.mem hs) hmem

/-! ### The fence -/

/-- After a series of stores each byte is the last one stored there, and as before where there is none. -/
theorem Memory.byte?_stores {m : Memory} (cells : List Host.Cell) (h : Memory.wf m) (a : Nat) :
    Memory.byte? (cells.foldl (fun m c => Memory.store m c.1 c.2) m) a =
      ((cells.reverse.find? (fun c => c.1 == a)).map (fun c => c.2)).or (Memory.byte? m a) := by
  induction cells generalizing m with
  | nil => rfl
  | cons c cs ih =>
    rw [List.foldl_cons, ih (Memory.store_wf h), Memory.byte?_store m c.1 a c.2 h, List.reverse_cons, List.find?_append]
    cases cs.reverse.find? (fun c => c.1 == a) with
    | some d => rfl
    | none =>
      by_cases hc : c.1 = a
      · simp [hc]
      · simp [hc, Ne.symm hc]

theorem State.fenceStores_portByte {s : State} (h : Memory.wf s.mem) (a : Nat) :
    s.fenceStores.portByte a =
      ((s.staged.reverse.find? (fun c => c.1 == a)).map (fun c => c.2)).getD (s.portByte a) := by
  rw [State.portByte, State.fenceStores_mem, Memory.byte?_stores s.staged h, Option.getD_or, ← State.portByte]

/-- Settles O56: the fence performs the staged stores in their order. -/
theorem fenceMakesTheStoresVisible : Obligations.FenceMakesTheStoresVisible := by
  intro s rest he hwf
  exact ⟨State.fenceStores { s with events := rest }, step_of_cons he, rfl,
    State.fenceStores_portByte (s := { s with events := rest }) hwf⟩

/-! ### The marks of a broken duty -/

/-- A mark without regions leaves the third duty as it is. -/
theorem Latched.mark_stores_unstableAt (l : Latched) (cells : List Host.Cell) (a : Nat) :
    (l.mark cells []).unstableAt a = l.unstableAt a := by
  simp [Latched.unstableAt, Latched.mark, Latched.covers]

/-- A mark without stores leaves the first and the second duty as they are. -/
theorem Latched.mark_regions_heldAt (l : Latched) (rs : List Region) (a : Nat) :
    (l.mark [] rs).heldAt a = l.heldAt a := by
  simp [Latched.heldAt, Latched.mark, Latched.covers]

/-- A store adds the value the read port shows and the value stored to what its byte of the buffer may have held (20_memory.md
R66). -/
theorem State.mem_heldAt_mark_store {s : State} {l : Latched} {a b : Nat} {v w : Byte} :
    w ∈ (l.mark (s.pending [(a, v)]) []).heldAt b ↔ w ∈ l.heldAt b ∨
      (b = a ∧ l.srcAddr.toNat ≤ a ∧ a < l.srcAddr.toNat + l.length.toNat ∧ (w = s.portByte a ∨ w = v)) := by
  rw [Latched.mem_heldAt_mark, State.mem_pending, Latched.covers_iff]
  simp only [List.mem_singleton, exists_eq_left]
  refine or_congr_right ⟨?_, ?_⟩
  · rintro ⟨⟨hlo, hhi⟩, rfl, hw⟩
    exact ⟨rfl, hlo, hhi, hw⟩
  · rintro ⟨rfl, hlo, hhi, hw⟩
    exact ⟨⟨hlo, hhi⟩, rfl, hw⟩

theorem step_store {s : State} {a : Nat} {v : Byte} {rest : List Event} (he : s.events = .store a v :: rest)
    (h : a < 2 ^ addrWidth s.cfg) :
    step s = .next { s with
      events := rest, staged := s.staged ++ [(a, v)],
      running := s.running.map (fun l => l.mark (s.pending [(a, v)]) []) } := by
  rw [step_of_cons he]
  exact if_pos h

theorem step_store_outside {s : State} {a : Nat} {v : Byte} {rest : List Event} (he : s.events = .store a v :: rest)
    (h : 2 ^ addrWidth s.cfg ≤ a) : step s = .fault .outsideBuffer := by
  rw [step_of_cons he]
  exact if_neg (Nat.not_lt.mpr h)

/-- Settles O31: a store marks the running command with the two values of its byte, a new map with its regions. -/
theorem storesAndMapsMarkTheRunningCommand : Obligations.StoresAndMapsMarkTheRunningCommand := by
  refine ⟨fun s a v rest he => ⟨step_store_outside he, fun hlt => ?_⟩, fun s rs rest he => ?_,
    fun l => ⟨Latched.broken_iff, fun _ => Latched.affected_iff⟩⟩
  · refine ⟨_, step_store he hlt, rfl, fun hidle => by simp [hidle], fun l hl => ?_, fun _ => rfl⟩
    refine ⟨l.mark (s.pending [(a, v)]) [], by simp [hl], by simp [Latched.mark], fun b => ?_⟩
    exact ⟨Latched.mark_stores_unstableAt l _ b, fun w => State.mem_heldAt_mark_store⟩
  · refine ⟨_, step_of_cons he, rfl, fun hidle => by simp [hidle], fun l hl => ?_, fun _ => rfl⟩
    refine ⟨l.mark [] rs, by simp [hl], by simp [Latched.mark], fun b => ⟨Latched.mark_regions_heldAt l rs b, ?_⟩⟩
    rw [Latched.unstableAt_mark, Latched.covers_iff, and_assoc]

/-! ### ONESHOT with a broken duty, and with a read that is never answered -/

/-- A broken duty leaves `LFILL` as R173 gives it (93_implementation_defined.md I5). -/
theorem State.hashBroken_lfill (s : State) (w : Width) (l : Latched) :
    (s.hashBroken w l).lfill.val = l.length.toNat % 16 := Nat.mod_mod _ 16

/-- Settles O21: the broken ONESHOT writes its status fields as ever, and each tail byte is what the absorber reads there. -/
theorem oneshotWithABrokenDutyKeepsItsStatus : Obligations.OneshotWithABrokenDutyKeepsItsStatus := by
  intro s wd l A L hlo hhi hanswered hbroken
  have hexec : exec (.oneshot wd.code) s = .next { s.hashBroken wd l with err := .ok, running := none } := by
    rw [exec_oneshot_inRange rfl (rangeCheck_ok.mpr ⟨hlo, hhi⟩) hanswered, if_pos hbroken]
  refine ⟨_, hexec, rfl, rfl, rfl, s.hashBroken_lfill wd l, rfl, rfl, rfl, rfl, fun k hk => ?_, fun k hle hk => ?_, rfl,
    fun _ => rfl⟩
  · have hbyte := (s.hashBroken_lbufByte wd l (k := k) (by omega)).trans (if_pos hk)
    obtain ⟨hkept, haffected⟩ := s.affectedRead_cases l (s.freeWord (8 + k)) (A + 16 * (L / 16) + k)
    exact ⟨fun h => hbyte.trans (hkept h), fun h hu => hbyte ▸ haffected h hu⟩
  · exact (s.hashBroken_lbufByte wd l hk).trans (if_neg (Nat.not_lt.mpr hle))

/-- A running ONESHOT with a read that is never answered changes nothing (20_memory.md R63). -/
theorem exec_oneshot_unanswered {s : State} {l : Latched} {wd : Width} (hl : s.running = some l)
    (hr : rangeCheck s l = .ok) (hu : s.unanswered l.srcAddr.toNat l.length.toNat = true) :
    exec (.oneshot wd.code) s = .next s := by
  have hkeep : ({ s with running := some l } : State) = s := by rw [← hl]
  simp [exec, execOneshot, State.latched_of_running hl, hr, hu, stall, hkeep]

/-- A state that a step leaves as it is stays so for any number of steps. -/
theorem run_of_step_fixed (M : Host.Core) {s : M.State} (h : M.step s = .next s) (n : Nat) : M.run n s = .next s := by
  induction n with
  | zero => rfl
  | succ n ih => rw [run_succ M h, ih]

/-- Settles O22: one step leaves the state as it is, so any number of steps does. -/
theorem unansweredReadKeepsTheCoreBusy : Obligations.UnansweredReadKeepsTheCoreBusy := by
  intro s l wd hl hdecode hlo hhi hu he
  have hperform : s.perform l = exec (.oneshot wd.code) s := by
    unfold State.perform
    rw [hdecode]
  apply run_of_step_fixed
  calc step s
    _ = s.perform l := by rw [step_of_nil he, State.advance_of_running hl]
    _ = exec (.oneshot wd.code) s := hperform
    _ = .next s := exec_oneshot_unanswered hl (rangeCheck_ok.mpr ⟨hlo, hhi⟩) hu

end Sys2Proof.Machine
end

section
/-! The command word (30_encoding.md): which words carry a reserved or an unused field (R85, R86), and that every other word is the
word of one command (R81, R82), so that the decoder is known from its value on the words of the commands (R87, R88). -/

namespace Sys2Proof

/-! ### The fields of a command's word -/

theorem encodesOpcode (i : Instr) : Laws.EncodesOpcode.Statement i := by
  cases i with
  | nop => exact Laws.EncodesOpcode.nop
  | init w => exact Laws.EncodesOpcode.init w
  | absorb n => exact Laws.EncodesOpcode.absorb n
  | final => exact Laws.EncodesOpcode.final
  | oneshot w => exact Laws.EncodesOpcode.oneshot w
  | clear => exact Laws.EncodesOpcode.clear

/-- A word is the word of a command exactly when its five fields are (R81). -/
theorem encode_eq_iff_fields (i : Instr) (cw : Word) :
    encode i = cw ↔
      opField cw = i.opcode ∧ reservedLow cw = 0#2 ∧ reservedHigh cw = 0#51 ∧
        wField cw = wField (encode i) ∧ nField cw = nField (encode i) := by
  obtain ⟨hop, hlow, hhigh⟩ := encodesOpcode i
  constructor
  · rintro rfl
    exact ⟨hop, hlow, hhigh, rfl, rfl⟩
  · rintro ⟨ho, hl, hh, hw, hn⟩
    exact word_ext (hop.trans ho.symm) hw.symm (hlow.trans hl.symm) hn.symm (hhigh.trans hh.symm)

theorem encode_init_eq_iff {w : BitVec 2} {cw : Word} :
    encode (.init w) = cw ↔
      opField cw = 1 ∧ reservedLow cw = 0 ∧ reservedHigh cw = 0 ∧ wField cw = w ∧ nField cw = 0 := by
  simpa [encode_operands, Instr.opcode] using encode_eq_iff_fields (.init w) cw

theorem encode_absorb_eq_iff {n : BitVec 5} {cw : Word} :
    encode (.absorb n) = cw ↔
      opField cw = 2 ∧ reservedLow cw = 0 ∧ reservedHigh cw = 0 ∧ wField cw = 0 ∧ nField cw = n := by
  simpa [encode_operands, Instr.opcode] using encode_eq_iff_fields (.absorb n) cw

theorem encode_oneshot_eq_iff {w : BitVec 2} {cw : Word} :
    encode (.oneshot w) = cw ↔
      opField cw = 4 ∧ reservedLow cw = 0 ∧ reservedHigh cw = 0 ∧ wField cw = w ∧ nField cw = 0 := by
  simpa [encode_operands, Instr.opcode] using encode_eq_iff_fields (.oneshot w) cw

/-! ### Reserved and unused fields -/

/-- The words of R85 and R86: a reserved `OP`, a reserved bit that is 1, or a field that the command does not use and that is
not 0. -/
def HasReservedField (cw : Word) : Prop :=
  6 ≤ (opField cw).toNat ∨ reservedLow cw ≠ 0 ∨ reservedHigh cw ≠ 0 ∨
    ((opField cw = 0 ∨ opField cw = 2 ∨ opField cw = 3 ∨ opField cw = 5) ∧ wField cw ≠ 0) ∨
    ((opField cw = 0 ∨ opField cw = 1 ∨ opField cw = 3 ∨ opField cw = 4 ∨ opField cw = 5) ∧ nField cw ≠ 0)

theorem opcode_cases (op : BitVec 4) : 6 ≤ op.toNat ∨ op = 0 ∨ op = 1 ∨ op = 2 ∨ op = 3 ∨ op = 4 ∨ op = 5 := by
  revert op
  decide

/-- Every other word is the word of a command, with the operand that stands in its `W` or `N` field. -/
theorem exists_encode_of_not_hasReservedField {cw : Word} (h : ¬HasReservedField cw) : ∃ i, encode i = cw := by
  obtain ⟨hop, hlow, hhigh, hw, hn⟩ : ¬6 ≤ (opField cw).toNat ∧ reservedLow cw = 0 ∧ reservedHigh cw = 0 ∧
      ((opField cw = 0 ∨ opField cw = 2 ∨ opField cw = 3 ∨ opField cw = 5) → wField cw = 0) ∧
      ((opField cw = 0 ∨ opField cw = 1 ∨ opField cw = 3 ∨ opField cw = 4 ∨ opField cw = 5) → nField cw = 0) := by
    simpa only [HasReservedField, not_or, not_and, ne_eq, not_not] using h
  rcases (opcode_cases (opField cw)).resolve_left hop with ho | ho | ho | ho | ho | ho
  · exact ⟨.nop, (encode_eq_iff_fields _ _).mpr ⟨ho, hlow, hhigh, hw (by simp [ho]), hn (by simp [ho])⟩⟩
  · exact ⟨.init (wField cw), encode_init_eq_iff.mpr ⟨ho, hlow, hhigh, rfl, hn (by simp [ho])⟩⟩
  · exact ⟨.absorb (nField cw), encode_absorb_eq_iff.mpr ⟨ho, hlow, hhigh, hw (by simp [ho]), rfl⟩⟩
  · exact ⟨.final, (encode_eq_iff_fields _ _).mpr ⟨ho, hlow, hhigh, hw (by simp [ho]), hn (by simp [ho])⟩⟩
  · exact ⟨.oneshot (wField cw), encode_oneshot_eq_iff.mpr ⟨ho, hlow, hhigh, rfl, hn (by simp [ho])⟩⟩
  · exact ⟨.clear, (encode_eq_iff_fields _ _).mpr ⟨ho, hlow, hhigh, hw (by simp [ho]), hn (by simp [ho])⟩⟩

theorem decodePlain_of_unused {cw : Word} (i : Instr) (h : wField cw ≠ 0 ∨ nField cw ≠ 0) :
    decodePlain cw i = .error .badOp :=
  if_neg (not_and_or.mpr h)

theorem decodeWidth_of_unused {cw : Word} (i : BitVec 2 → Instr) (h : nField cw ≠ 0) : decodeWidth cw i = .error .badOp :=
  if_pos h

theorem decodeCount_of_unused {cw : Word} (i : BitVec 5 → Instr) (h : wField cw ≠ 0) : decodeCount cw i = .error .badOp :=
  if_pos h

/-- The checks of the reserved bits, of `OP` and of the unused fields answer BADOP for all of these words, and come first. -/
theorem decode_of_hasReservedField {cw : Word} (h : HasReservedField cw) : decode cw = .error .badOp := by
  unfold decode
  split
  · rfl
  next hres =>
  obtain ⟨hlow, hhigh⟩ : reservedLow cw = 0#2 ∧ reservedHigh cw = 0#51 := by simpa [not_or] using hres
  have op : ∀ k : BitVec 4, (opField cw).toNat = k.toNat → opField cw = k := fun _ => BitVec.toNat_inj.mp
  split
  · next ho => exact decodePlain_of_unused _ (by simpa [HasReservedField, hlow, hhigh, op 0 ho] using h)
  · next ho => exact decodeWidth_of_unused _ (by simpa [HasReservedField, hlow, hhigh, op 1 ho] using h)
  · next ho => exact decodeCount_of_unused _ (by simpa [HasReservedField, hlow, hhigh, op 2 ho] using h)
  · next ho => exact decodePlain_of_unused _ (by simpa [HasReservedField, hlow, hhigh, op 3 ho] using h)
  · next ho => exact decodeWidth_of_unused _ (by simpa [HasReservedField, hlow, hhigh, op 4 ho] using h)
  · next ho => exact decodePlain_of_unused _ (by simpa [HasReservedField, hlow, hhigh, op 5 ho] using h)
  · rfl

/-! ### The decoder on the words of the commands -/

/-- What is wrong with the operand of a command that is not well formed (R83, R84). -/
def Instr.operandError : Instr → DecodeError
  | .absorb _ => .badCount
  | _ => .badWidth

theorem Instr.operandError_ne_badOp (i : Instr) : i.operandError ≠ .badOp := by
  cases i <;> simp [Instr.operandError]

theorem Instr.hasWidthError_iff (i : Instr) :
    i.wf = false ∧ i.operandError = .badWidth ↔ i = .init 3 ∨ i = .oneshot 3 := by
  cases i <;> simp [Instr.wf, Instr.operandError]

theorem Instr.hasCountError_iff (i : Instr) :
    i.wf = false ∧ i.operandError = .badCount ↔ ∃ n, i = .absorb n ∧ 16 < n.toNat := by
  cases i <;> simp [Instr.wf, Instr.operandError]

theorem decode_encode (i : Instr) : decode (encode i) = if i.wf then .ok i else .error i.operandError := by
  cases i with
  | init w => revert w; decide
  | absorb n => revert n; decide
  | oneshot w => revert w; decide
  | _ => rfl

theorem decode_encode_eq_ok_iff (i j : Instr) : decode (encode i) = .ok j ↔ i.wf = true ∧ i = j := by
  rw [decode_encode]
  split <;> simp [*]

theorem decode_encode_eq_error_iff (i : Instr) (e : DecodeError) :
    decode (encode i) = .error e ↔ i.wf = false ∧ i.operandError = e := by
  rw [decode_encode]
  split <;> simp [*]

/-! ### The decoder on every word -/

theorem decode_eq_badOp_iff (cw : Word) : decode cw = .error .badOp ↔ ∀ i, encode i ≠ cw := by
  constructor
  · rintro h i rfl
    exact i.operandError_ne_badOp ((decode_encode_eq_error_iff i _).mp h).2
  · intro h
    by_contra hne
    obtain ⟨i, hi⟩ := exists_encode_of_not_hasReservedField fun hr => hne (decode_of_hasReservedField hr)
    exact h i hi

/-- A word with any other answer is the word of a command. -/
theorem decode_eq_iff_exists_encode {r : Except DecodeError Instr} (hr : r ≠ .error .badOp) (cw : Word) :
    decode cw = r ↔ ∃ i, decode (encode i) = r ∧ encode i = cw := by
  constructor
  · intro h
    obtain ⟨i, hi⟩ : ∃ i, encode i = cw := by
      by_contra hno
      exact hr (h.symm.trans ((decode_eq_badOp_iff cw).mpr (not_exists.mp hno)))
    exact ⟨i, hi ▸ h, hi⟩
  · rintro ⟨i, h, rfl⟩
    exact h

theorem decode_eq_ok_iff (cw : Word) (i : Instr) : decode cw = .ok i ↔ i.wf = true ∧ encode i = cw := by
  rw [decode_eq_iff_exists_encode (by simp)]
  simp only [decode_encode_eq_ok_iff, and_assoc]
  constructor
  · rintro ⟨j, hwf, rfl, hj⟩
    exact ⟨hwf, hj⟩
  · rintro ⟨hwf, hi⟩
    exact ⟨i, hwf, rfl, hi⟩

theorem decode_eq_badWidth_iff (cw : Word) :
    decode cw = .error .badWidth ↔ encode (.init 3) = cw ∨ encode (.oneshot 3) = cw := by
  rw [decode_eq_iff_exists_encode (by simp)]
  simp only [decode_encode_eq_error_iff, Instr.hasWidthError_iff, or_and_right, exists_or, exists_eq_left]

theorem decode_eq_badCount_iff (cw : Word) :
    decode cw = .error .badCount ↔ ∃ n, encode (.absorb n) = cw ∧ 16 < n.toNat := by
  rw [decode_eq_iff_exists_encode (by simp)]
  simp only [decode_encode_eq_error_iff, Instr.hasCountError_iff]
  constructor
  · rintro ⟨_, ⟨n, rfl, hn⟩, hcw⟩
    exact ⟨n, hcw, hn⟩
  · rintro ⟨n, hcw, hn⟩
    exact ⟨_, ⟨n, rfl, hn⟩, hcw⟩

/-- Settles O1: a word is accepted as a command exactly when the command is well formed and the word is its word. -/
theorem decodeAndEncodeAgree : Obligations.DecodeAndEncodeAgree :=
  ⟨fun i hwf => (decode_eq_ok_iff _ i).mpr ⟨hwf, rfl⟩, fun cw i h => (decode_eq_ok_iff cw i).mp h⟩

/-- Settles O3: the decoder computes each of the fourteen answers. -/
theorem exampleWordsDecode : Obligations.ExampleWordsDecode := by
  unfold Obligations.ExampleWordsDecode
  decide

/-! ### Match and mask (R88) -/

/-- A mask that has every bit of `OP` and of the reserved fields fixes these; what it asks of `W` and `N` is open here. -/
theorem and_mask_eq_iff (cw : Word) (op : BitVec 4) {m : Word} (ho : opField m = BitVec.allOnes 4)
    (hl : reservedLow m = BitVec.allOnes 2) (hh : reservedHigh m = BitVec.allOnes 51) :
    cw &&& m = op.setWidth 64 ↔
      opField cw = op ∧ reservedLow cw = 0 ∧ reservedHigh cw = 0 ∧ wField cw &&& wField m = 0 ∧ nField cw &&& nField m = 0 := by
  obtain ⟨vo, vw, vl, vn, vh⟩ : opField (op.setWidth 64) = op ∧ wField (op.setWidth 64) = 0 ∧
      reservedLow (op.setWidth 64) = 0 ∧ nField (op.setWidth 64) = 0 ∧ reservedHigh (op.setWidth 64) = 0 := by
    revert op
    decide
  rw [and_eq_iff_fields, ho, hl, hh, vo, vw, vl, vn, vh, BitVec.and_allOnes, BitVec.and_allOnes, BitVec.and_allOnes]
  tauto

/-- The mask of INIT and ONESHOT leaves `W` out. -/
theorem and_widthMask_eq_iff (cw : Word) (op : BitVec 4) :
    cw &&& 0xFFFFFFFFFFFFFFCF = op.setWidth 64 ↔
      opField cw = op ∧ reservedLow cw = 0 ∧ reservedHigh cw = 0 ∧ nField cw = 0 := by
  have hw : wField 0xFFFFFFFFFFFFFFCF = 0#2 := by decide
  have hn : nField 0xFFFFFFFFFFFFFFCF = BitVec.allOnes 5 := by decide
  rw [and_mask_eq_iff cw op (by decide) (by decide) (by decide), hw, hn, BitVec.and_zero, BitVec.and_allOnes]
  tauto

/-- The mask of ABSORB leaves `N` out. -/
theorem and_countMask_eq_iff (cw : Word) (op : BitVec 4) :
    cw &&& 0xFFFFFFFFFFFFE0FF = op.setWidth 64 ↔
      opField cw = op ∧ reservedLow cw = 0 ∧ reservedHigh cw = 0 ∧ wField cw = 0 := by
  have hw : wField 0xFFFFFFFFFFFFE0FF = BitVec.allOnes 2 := by decide
  have hn : nField 0xFFFFFFFFFFFFE0FF = 0#5 := by decide
  rw [and_mask_eq_iff cw op (by decide) (by decide) (by decide), hw, hn, BitVec.and_zero, BitVec.and_allOnes]
  tauto

theorem encode_init_eq_iff_mask (w : BitVec 2) (cw : Word) :
    encode (.init w) = cw ↔ cw &&& 0xFFFFFFFFFFFFFFCF = 0x1 ∧ cw.extractLsb' 4 2 = w := by
  rw [encode_init_eq_iff, show (0x1 : Word) = (1#4).setWidth 64 from rfl, and_widthMask_eq_iff, wField]
  tauto

theorem encode_absorb_eq_iff_mask (n : BitVec 5) (cw : Word) :
    encode (.absorb n) = cw ↔ cw &&& 0xFFFFFFFFFFFFE0FF = 0x2 ∧ cw.extractLsb' 8 5 = n := by
  rw [encode_absorb_eq_iff, show (0x2 : Word) = (2#4).setWidth 64 from rfl, and_countMask_eq_iff, nField]
  tauto

theorem encode_oneshot_eq_iff_mask (w : BitVec 2) (cw : Word) :
    encode (.oneshot w) = cw ↔ cw &&& 0xFFFFFFFFFFFFFFCF = 0x4 ∧ cw.extractLsb' 4 2 = w := by
  rw [encode_oneshot_eq_iff, show (0x4 : Word) = (4#4).setWidth 64 from rfl, and_widthMask_eq_iff, wField]
  tauto

/-- A row with no free field has every bit in its mask. -/
theorem decode_eq_ok_iff_fullMask {i : Instr} (hwf : i.wf = true) (cw : Word) :
    decode cw = .ok i ↔ cw &&& 0xFFFFFFFFFFFFFFFF = encode i := by
  rw [decode_eq_ok_iff, show (0xFFFFFFFFFFFFFFFF : Word) = BitVec.allOnes 64 from rfl, BitVec.and_allOnes, eq_comm (a := cw)]
  exact and_iff_right hwf

theorem Instr.forall_iff {p : Instr → Prop} :
    (∀ i, p i) ↔ p .nop ∧ (∀ w, p (.init w)) ∧ (∀ n, p (.absorb n)) ∧ p .final ∧ (∀ w, p (.oneshot w)) ∧ p .clear := by
  constructor
  · exact fun h => ⟨h _, fun _ => h _, fun _ => h _, h _, fun _ => h _, h _⟩
  · rintro ⟨hnop, hinit, habsorb, hfinal, honeshot, hclear⟩ (_ | w | n | _ | w | _)
    exacts [hnop, hinit w, habsorb n, hfinal, honeshot w, hclear]

/-- A word is the word of no command exactly when it is in no row of the table. -/
theorem encode_ne_iff_masks (cw : Word) :
    (∀ i, encode i ≠ cw) ↔
      cw ≠ 0x0 ∧ cw &&& 0xFFFFFFFFFFFFFFCF ≠ 0x1 ∧ cw &&& 0xFFFFFFFFFFFFE0FF ≠ 0x2 ∧ cw ≠ 0x3 ∧
        cw &&& 0xFFFFFFFFFFFFFFCF ≠ 0x4 ∧ cw ≠ 0x5 := by
  rw [Instr.forall_iff]
  simp only [ne_eq, encode_init_eq_iff_mask, encode_absorb_eq_iff_mask, encode_oneshot_eq_iff_mask, not_and', forall_eq']
  simp only [encode, eq_comm (b := cw)]
  exact Iff.rfl

/-- Settles O2: an accepted word is the word of a well-formed command, a word with BADWIDTH or BADCOUNT that of a command with
a bad operand, one with BADOP that of none; and being the word of a command is the match and mask of its row. -/
theorem decodeRecognisesMatchAndMask : Obligations.DecodeRecognisesMatchAndMask := by
  intro cw
  refine ⟨decode_eq_ok_iff_fullMask (i := .nop) rfl cw, fun w => ?_, fun n => ?_, decode_eq_ok_iff_fullMask (i := .final) rfl cw,
    fun w => ?_, decode_eq_ok_iff_fullMask (i := .clear) rfl cw, ?_, ?_, ?_⟩
  · rw [decode_eq_ok_iff, encode_init_eq_iff_mask, and_comm, and_assoc, Instr.wf, bne_iff_ne]
    exact Iff.rfl
  · rw [decode_eq_ok_iff, encode_absorb_eq_iff_mask, and_comm, and_assoc, Instr.wf, decide_eq_true_iff]
  · rw [decode_eq_ok_iff, encode_oneshot_eq_iff_mask, and_comm, and_assoc, Instr.wf, bne_iff_ne]
    exact Iff.rfl
  · rw [decode_eq_badWidth_iff, encode_init_eq_iff_mask, encode_oneshot_eq_iff_mask, or_and_right]
  · rw [decode_eq_badCount_iff]
    simp only [encode_absorb_eq_iff_mask, and_assoc, exists_and_left, exists_eq_left']
  · rw [decode_eq_badOp_iff, encode_ne_iff_masks]

end Sys2Proof
end

section
/-! The decoder's answers in a step (R83 to R86), and the turns of the host program (R89). -/

namespace Sys2Proof.Machine

/-- A word that the decoder rejects completes with its code (43_commands.md R162). -/
theorem perform_of_decode_error {s : State} {l : Latched} {e : DecodeError} (h : decode l.cw = .error e) :
    s.perform l = .next { s with err := codeOfDecodeError e, running := none } := by
  unfold State.perform
  rw [h]
  rfl

/-- Settles O4: the decoder rejects such a word with BADOP before it looks at the state. -/
theorem reservedWordsAreRejectedBadOp : Obligations.ReservedWordsAreRejectedBadOp :=
  fun _ _ h => perform_of_decode_error (decode_of_hasReservedField h)

/-- Settles O5: the operand checks of `execInit`, `execOneshot` and `execAbsorb` come before everything else. -/
theorem unsupportedWidthAndCountAreRejected : Obligations.UnsupportedWidthAndCountAreRejected :=
  ⟨⟨rfl, rfl, rfl, rfl⟩, fun _ => rfl, fun _ => rfl, fun _ _ hn => if_pos hn⟩

/-- A whole write of a register on the bus (20_memory.md R52; 43_commands.md R178). -/
theorem step_writeEvent {s : State} {r : Reg} {v : Word} {rest : List Event} (he : s.events = writeEvent s.cfg r v :: rest) :
    step s = .next (State.writeReg { s with events := rest } r v) := by
  obtain ⟨hlt, h8⟩ := r.offset_whole
  rw [step_write he hlt h8, State.hostWrite, regAt_offset]

/-- A whole read of a register on the bus (20_memory.md R52; 43_commands.md R177). -/
theorem step_readEvent {s : State} {r : Reg} {rest : List Event} (he : s.events = readEvent s.cfg r :: rest) :
    step s = .next (State.readReg { s with events := rest } r) := by
  obtain ⟨hlt, h8⟩ := r.offset_whole
  rw [step_read he hlt h8, State.hostRead, regAt_offset]

/-- A turn of the host at a `wait` is a read of `STATUS`, after which the `wait` is off the program exactly when `BUSY = 0`. -/
theorem step_host_wait {s : State} {rest : List Event} {p : List Access} (he : s.events = .host :: rest)
    (hp : s.program = .wait :: p) :
    step s = .next { State.readReg { s with events := rest } .status with program := if s.busy then .wait :: p else p } := by
  have hturn : State.hostTurn { s with events := rest } =
      { State.readReg { s with events := rest } .status with program := if s.busy then .wait :: p else p } :=
    State.hostTurn_wait hp
  exact (step_of_cons he).trans (congrArg _ hturn)

/-- The word that a read of `STATUS` returns shows `BUSY` in its bit 0, whether a command runs or not. -/
theorem State.readReg_status_busyBit (s : State) : (s.readReg .status).rdata.getLsbD 0 = s.busy := by
  rcases hb : s.busy with _ | _
  · exact State.readReg_status_idle hb
  · exact State.readReg_status_busy hb

theorem State.readReg_running (s : State) (r : Reg) : (s.readReg r).running = s.running := by
  obtain ⟨v, d, hr⟩ := s.readReg_changes r
  rw [hr]

/-- Settles O19: a turn and the bus access of its statement reach the same register operation. -/
theorem hostTurnsPerformTheProgram : Obligations.HostTurnsPerformTheProgram := by
  intro s rest he
  have hturn : step s = .next (State.hostTurn { s with events := rest }) := step_of_cons he
  refine ⟨fun hp => ?_, fun r v p hp => ?_, fun r p hp => ?_, fun p hp => ⟨?_, _, step_host_wait he hp, ?_, ?_⟩⟩
  · simp only [hturn, State.hostTurn, hp]
  · rw [hturn, step_writeEvent rfl]
    simp only [State.hostTurn, hp]
  · rw [hturn, step_readEvent rfl]
    simp only [State.hostTurn, hp]
  · rw [step_host_wait he hp, step_readEvent rfl]
    exact congrArg _ (State.readReg_program { s with events := rest } .status _).symm
  · exact State.readReg_status_busyBit { s with events := rest }
  · exact State.readReg_running { s with events := rest } .status

end Sys2Proof.Machine
end

section
/-! The mixing engines (40_mixing.md R103 to R105): their algorithms in the library's rotate, and the two halves of mixA. -/

namespace Sys2Proof.Machine

/-- Settles O25: mixA's four rotations are all by less than 64, so each is the library's rotate right. -/
theorem mixAIsTheFourLineAlgorithm : Obligations.MixAIsTheFourLineAlgorithm := by
  intro c h
  simp only [mixA, mixARot0, mixARot1, mixARot2, mixARot3, rotr_eq_rotateRight, Nat.reduceLT]

/-- Settles O26: mixB's two rotations are both by less than 64, so each is the library's rotate right. -/
theorem mixBChangesWordsOneAndTwo : Obligations.MixBChangesWordsOneAndTwo := by
  intro c seed h
  simp only [mixB, mixBRot1, mixBRot2, rotr_eq_rotateRight, Nat.reduceLT]

/-- Settles O27: in the algorithm of R103 the first two lines name only `H[0]` and `H[1]`, the last two only `H[2]` and `H[3]`. -/
theorem mixAHalvesAreIndependent : Obligations.MixAHalvesAreIndependent := by
  intro c h h'
  rw [mixAIsTheFourLineAlgorithm c h, mixAIsTheFourLineAlgorithm c h']
  refine ⟨fun h0 h1 => ?_, fun h2 h3 => ?_⟩
  · simp only [h0, h1, and_self]
  · simp only [h2, h3, and_self]

end Sys2Proof.Machine
end

section
/-! Absorption (41_absorption.md): the lane scheduler over one ABSORB (R121, R123, R124), over any series of them (R122, R125), and
the invariant that every step keeps. -/

namespace Sys2Proof.Machine

/-! ### The lane scheduler over at most 16 bytes -/

/-- The bytes of `LBUF` below `LFILL`, then the data bytes `d` (R123). -/
def State.buffered (s : State) (d : Nat → Byte) (k : Nat) : Byte :=
  if k < s.lfill.val then s.lbufByte k else d (k - s.lfill.val)

@[simp] theorem State.pushBytes_cfg (s : State) (d : Nat → Byte) (n : Nat) : (s.pushBytes d n).cfg = s.cfg := by
  rw [State.pushBytes_frame]

@[simp] theorem State.pushBytes_sseed (s : State) (d : Nat → Byte) (n : Nat) : (s.pushBytes d n).sseed = s.sseed := by
  rw [State.pushBytes_frame]

/-- `State.pushBytes_absorbs`, on the bytes by their name. -/
theorem State.pushBytes_absorbs_buffered (s : State) (d : Nat → Byte) (n : Nat) :
    (s.pushBytes d n).Absorbed s.inner s.h (s.buffered d) (s.lfill.val + n) := s.pushBytes_absorbs d n

/-- Bytes that do not fill `LBUF` are appended to it, and nothing else happens (R124). -/
theorem State.pushBytes_of_no_lane {s : State} {n : Nat} (d : Nat → Byte) (h : s.lfill.val + n < 16) :
    (s.pushBytes d n).h = s.h ∧ (s.pushBytes d n).inner = s.inner ∧ (s.pushBytes d n).lfill.val = s.lfill.val + n ∧
      ∀ k < s.lfill.val + n, (s.pushBytes d n).lbufByte k = s.buffered d k := by
  obtain ⟨hhash, hparity, hfill, hrest⟩ := s.pushBytes_absorbs_buffered d n
  rw [Nat.div_eq_of_lt h] at hhash hparity hrest
  rw [Nat.mod_eq_of_lt h] at hfill hrest
  refine ⟨hhash, by simpa using hparity, hfill, fun k hk => ?_⟩
  simpa using hrest k hk

/-- Bytes that fill `LBUF` complete one lane, and those left over start `LBUF` anew (R124). -/
theorem State.pushBytes_of_lane {s : State} {n : Nat} (d : Nat → Byte) (hn : n ≤ 16) (h : 16 ≤ s.lfill.val + n) :
    (s.pushBytes d n).h = laneState s.cfg s.sseed s.inner (s.buffered d) s.h ∧ (s.pushBytes d n).inner = !s.inner ∧
      (s.pushBytes d n).lfill.val = s.lfill.val + n - 16 ∧
      ∀ k < s.lfill.val + n - 16, (s.pushBytes d n).lbufByte k = d (16 - s.lfill.val + k) := by
  have hlt := s.lfill.isLt
  have hdiv : (s.lfill.val + n) / 16 = 1 := by omega
  have hmod : (s.lfill.val + n) % 16 = s.lfill.val + n - 16 := by omega
  obtain ⟨hhash, hparity, hfill, hrest⟩ := s.pushBytes_absorbs_buffered d n
  rw [hdiv] at hhash hparity hrest
  rw [hmod] at hfill hrest
  refine ⟨?_, by simpa using hparity, hfill, fun k hk => ?_⟩
  · rw [hhash, State.pushBytes_cfg, State.pushBytes_sseed]
    simp [lanesFrom]
  · rw [hrest k hk, State.buffered, if_neg (by omega), show 16 * 1 + k - s.lfill.val = 16 - s.lfill.val + k by omega]

/-! ### One ABSORB -/

/-- Settles O14: the scheduler completes a lane or does not, and `push` writes nothing but the fields listed. -/
theorem absorbCountsAndFills : Obligations.AbsorbCountsAndFills := by
  intro s n hopened hn
  refine ⟨_, exec_absorb_opened hopened hn, ?_⟩
  rw [State.push_frame]
  refine ⟨?_, rfl, rfl, rfl, rfl, fun _ => rfl⟩
  split
  · next h =>
    obtain ⟨-, hinner, hfill, -⟩ := State.pushBytes_of_lane _ hn h
    exact ⟨hfill, hinner⟩
  · next h =>
    obtain ⟨-, hinner, hfill, -⟩ := State.pushBytes_of_no_lane _ (Nat.not_le.mp h)
    exact ⟨hfill, hinner⟩

/-- Settles O15: the lane formula is the definition, and the bytes lie where the scheduler puts them. -/
theorem absorbMovesTheDataBytes : Obligations.AbsorbMovesTheDataBytes := by
  refine ⟨fun _ _ _ _ => ⟨rfl, rfl⟩, fun s n hopened hn => ⟨_, exec_absorb_opened hopened hn, ?_⟩⟩
  rw [State.push_frame]
  split
  · next h =>
    obtain ⟨hhash, -, -, hrest⟩ := State.pushBytes_of_lane _ hn h
    exact ⟨hhash, hrest⟩
  · next h =>
    obtain ⟨hhash, -, -, hrest⟩ := State.pushBytes_of_no_lane _ (Nat.not_le.mp h)
    exact ⟨hhash, hrest⟩

/-! ### A series of ABSORBs -/

/-- From `s`, where no lane and no byte stood open, ABSORBs of the bytes `D[0..T-1]` have led to `t` (R125). -/
structure State.SessionAbsorbed (s : State) (D : Nat → Byte) (T : Nat) (t : State) : Prop where
  absorbed : t.Absorbed false s.h D T
  count : t.count = s.count + BitVec.ofNat 64 T
  opened : t.phase = .opened
  idle : t.running = none
  sseed : t.sseed = s.sseed
  width : t.width = s.width
  dout : t.dout = s.dout
  cfg : t.cfg = s.cfg

/-- The state that an INIT leaves has absorbed nothing. -/
theorem State.sessionAbsorbed_zero {s : State} (D : Nat → Byte) (hopened : s.phase = .opened) (hfill : s.lfill = 0)
    (hinner : s.inner = false) (hidle : s.running = none) : s.SessionAbsorbed D 0 s where
  absorbed := ⟨rfl, hinner, congrArg Fin.val hfill, fun _ hk => absurd hk (Nat.not_lt_zero _)⟩
  count := (BitVec.add_zero _).symm
  opened := hopened
  idle := hidle
  sseed := rfl
  width := rfl
  dout := rfl
  cfg := rfl

/-- Nothing absorbed depends on what stands in `DIN0` and `DIN1`. -/
theorem State.SessionAbsorbed.withData {s u : State} {D : Nat → Byte} {T : Nat} (h : s.SessionAbsorbed D T u) (d0 d1 : Word) :
    s.SessionAbsorbed D T { u with din0 := d0, din1 := d1 } :=
  ⟨⟨h.absorbed.hash, h.absorbed.parity, h.absorbed.fill, h.absorbed.rest⟩, h.count, h.opened, h.idle, h.sseed, h.width, h.dout,
    h.cfg⟩

/-- An ABSORB completes, and its data bytes are absorbed after those before them. -/
theorem exec_absorb_sessionAbsorbed {s u : State} {D : Nat → Byte} {T : Nat} {n : BitVec 5} (h : s.SessionAbsorbed D T u)
    (hn : n.toNat ≤ 16) (hD : ∀ k < n.toNat, dataByte u.din0 u.din1 k = D (T + k)) :
    ∃ t, exec (.absorb n) u = .next t ∧ s.SessionAbsorbed D (T + n.toNat) t := by
  obtain ⟨hhash, hparity, hfill, hrest⟩ := State.pushBytes_absorbed h.absorbed hD
  rw [State.pushBytes_cfg, State.pushBytes_sseed] at hhash
  refine ⟨_, exec_absorb_opened h.opened hn, ?_⟩
  rw [State.latched_of_idle h.idle, State.push_frame]
  refine ⟨⟨hhash, hparity, hfill, hrest⟩, ?_, h.opened, rfl, h.sseed, h.width, h.dout, h.cfg⟩
  calc u.count + BitVec.ofNat 64 n.toNat
    _ = s.count + BitVec.ofNat 64 T + BitVec.ofNat 64 n.toNat := by rw [h.count]
    _ = s.count + BitVec.ofNat 64 (T + n.toNat) := by rw [BitVec.add_assoc, BitVec.ofNat_add]

/-- One beat completes, and its bytes are absorbed after those before it. -/
theorem absorbChunk_sessionAbsorbed {s u : State} {D : Nat → Byte} {T : Nat} {chunk : List Byte} (h : s.SessionAbsorbed D T u)
    (hlen : chunk.length ≤ 16) (hD : ∀ k < chunk.length, D (T + k) = chunk.getD k 0) :
    ∃ t, absorbChunk chunk u = .next t ∧ s.SessionAbsorbed D (T + chunk.length) t := by
  have hn : (BitVec.ofNat 5 chunk.length).toNat = chunk.length := Nat.mod_eq_of_lt (by omega)
  have hexec := exec_absorb_sessionAbsorbed (n := BitVec.ofNat 5 chunk.length) (h.withData (feedLow chunk) (feedHigh chunk))
  rw [hn] at hexec
  exact hexec hlen fun k hk => (dataByte_feed hlen (by omega)).trans (hD k hk).symm

/-- Any beats of at most 16 bytes complete, and their bytes are absorbed in order. -/
theorem absorbChunks_sessionAbsorbed {s u : State} {D : Nat → Byte} {T : Nat} {chunks : List (List Byte)}
    (h : s.SessionAbsorbed D T u) (hlen : ∀ c ∈ chunks, c.length ≤ 16)
    (hD : ∀ k < chunks.flatten.length, D (T + k) = chunks.flatten.getD k 0) :
    ∃ t, absorbChunks chunks u = .next t ∧ s.SessionAbsorbed D (T + chunks.flatten.length) t := by
  induction chunks generalizing u T with
  | nil => exact ⟨_, rfl, h⟩
  | cons c cs ih =>
    rw [List.flatten_cons, List.length_append] at hD ⊢
    have hhead : ∀ k < c.length, D (T + k) = c.getD k 0 := fun k hk => by
      rw [hD k (by omega), List.getD_append _ _ _ _ hk]
    have htail : ∀ k < cs.flatten.length, D (T + c.length + k) = cs.flatten.getD k 0 := fun k hk => by
      rw [Nat.add_assoc, hD _ (by omega), List.getD_append_right _ _ _ _ (Nat.le_add_right ..), Nat.add_sub_cancel_left]
    obtain ⟨v, hv, hsv⟩ := absorbChunk_sessionAbsorbed h (hlen c List.mem_cons_self) hhead
    obtain ⟨t, ht, hst⟩ := ih hsv (fun c' hc => hlen c' (List.mem_cons_of_mem _ hc)) htail
    refine ⟨t, ?_, Nat.add_assoc .. ▸ hst⟩
    rw [absorbChunks, hv]
    exact ht

/-- Settles O35: by induction over the beats, with every state between two of them described by the bytes absorbed so far. -/
theorem chunkingDoesNotMatter : Obligations.ChunkingDoesNotMatter := by
  intro s chunks hopened hfill hinner hcount hidle hlen D T
  have h0 : s.SessionAbsorbed D 0 s := State.sessionAbsorbed_zero D hopened hfill hinner hidle
  obtain ⟨t, ht, h⟩ := absorbChunks_sessionAbsorbed h0 hlen fun k _ => by rw [Nat.zero_add]
  rw [Nat.zero_add] at h
  obtain ⟨hhash, hparity, hlfill, hrest⟩ := h.absorbed
  rw [lanesFrom_even, h.cfg, h.sseed] at hhash
  rw [Bool.false_xor] at hparity
  refine ⟨t, ht, hhash, hparity, hlfill, ?_, hrest, h.opened, h.sseed, h.width, h.dout, h.cfg⟩
  rw [h.count, hcount]
  exact BitVec.zero_add _

/-! ### The invariant -/

/-- `LFILL` and `INNER` are the ones that `COUNT` gives (R122, R125). The wrap of `COUNT` does no harm: `2^64` bytes are an even
number of full lanes. -/
structure CountGives (count : Word) (lfill : Fin 16) (inner : Bool) : Prop where
  fill : lfill.val = count.toNat % 16
  parity : inner = decide (count.toNat / 16 % 2 = 1)

theorem CountGives.zero : CountGives 0 0 false := ⟨by decide, by decide⟩

theorem CountGives.add {count : Word} {lfill lfill' : Fin 16} {inner inner' : Bool} {n : Nat} (h : CountGives count lfill inner)
    (hfill : lfill'.val = (lfill.val + n) % 16) (hparity : inner' = (inner ^^ decide ((lfill.val + n) / 16 % 2 = 1))) :
    CountGives (count + BitVec.ofNat 64 n) lfill' inner' := by
  obtain ⟨hf, hp⟩ := h
  have hcount : (count + BitVec.ofNat 64 n).toNat = (count.toNat + n) % 2 ^ 64 := by simp
  refine ⟨by omega, ?_⟩
  rw [hparity, hp, hcount, hf, Bool.eq_iff_iff, Bool.xor_iff_ne, ne_eq, decide_eq_decide, decide_eq_true_iff]
  omega

/-- The clauses of the invariant about the session: in `IDLE` it is the one after reset, but for `ERR`. -/
structure SessionPart.Inv (p : SessionPart) : Prop where
  countGives : CountGives p.count p.lfill p.inner
  idleReset : p.phase = .idle → p = { State.reset.sessionPart with err := p.err }
  openNoDigest : p.phase = .opened → p.dout = Quad.zero

/-- The clauses of the invariant about the buffer space. -/
structure Surroundings.Inv (e : Surroundings) : Prop where
  memCanonical : Memory.wf e.mem
  memExists : addressesExist e.cfg e.mem
  stagedExists : addressesExist e.cfg e.staged

/-- In `IDLE` a blank core is the core after reset, but for `ERR` (10_state.md R28). -/
theorem State.blank_iff {s : State} (h : s.phase = .idle) :
    s.blank ↔ s.sessionPart = { State.reset.sessionPart with err := s.err } := by
  simp [State.blank, State.sessionPart, State.reset, Quad.zero, h]

theorem State.inv_iff (s : State) : s.Inv ↔ s.surroundings.Inv ∧ s.sessionPart.Inv := by
  constructor
  · rintro ⟨hwf, hmem, hstaged, hfill, hparity, hidle, hopen⟩
    exact ⟨⟨hwf, hmem, hstaged⟩, ⟨hfill, hparity⟩, fun h => (State.blank_iff h).mp (hidle h), hopen⟩
  · rintro ⟨⟨hwf, hmem, hstaged⟩, ⟨hfill, hparity⟩, hidle, hopen⟩
    exact ⟨hwf, hmem, hstaged, hfill, hparity, fun h => (State.blank_iff h).mpr (hidle h), hopen⟩

/-- Stores and the fence list only addresses that exist, and keep the canonical form (20_memory.md R56, R66). -/
theorem step_surroundings_inv {s t : State} (h : step s = .next t) (hs : s.surroundings.Inv) : t.surroundings.Inv := by
  obtain ⟨hwf, hmem, hstaged⟩ := hs
  rcases step_surroundings_cases h with he | ⟨a, v, rest, hev, he⟩ | ⟨rest, -, he⟩ | ⟨rs, rest, -, he⟩ <;> rw [he]
  · exact ⟨hwf, hmem, hstaged⟩
  · have ha : a < 2 ^ addrWidth s.cfg := by
      by_contra hge
      rw [step_store_outside hev (Nat.not_lt.mp hge)] at h
      cases h
    refine ⟨hwf, hmem, fun c hc => ?_⟩
    rcases List.mem_append.mp hc with hc | hc
    · exact hstaged c hc
    · rw [List.mem_singleton.mp hc]
      exact ha
  · refine ⟨State.fenceStores_wf hwf, fun c hc => ?_, fun c hc => nomatch hc⟩
    rcases Memory.mem_stores hc with hc | hc
    · exact hstaged c hc
    · exact hmem c hc
  · exact ⟨hwf, hmem, hstaged⟩

/-- No clause is about `ERR`. -/
theorem SessionPart.Inv.withErr {p : SessionPart} (h : p.Inv) (e : ResultCode) : SessionPart.Inv { p with err := e } where
  countGives := h.countGives
  idleReset hp := congrArg (fun q : SessionPart => { q with err := e }) (h.idleReset hp)
  openNoDigest := h.openNoDigest

/-- In `DONE` only the counters are bound. -/
theorem SessionPart.Inv.of_done {p : SessionPart} (h : CountGives p.count p.lfill p.inner) (hp : p.phase = .done) : p.Inv where
  countGives := h
  idleReset hi := nomatch hp.symm.trans hi
  openNoDigest ho := nomatch hp.symm.trans ho

/-- Every command keeps the clauses about the session (43_commands.md). -/
theorem exec_sessionPart_inv {i : Instr} {s t : State} (h : exec i s = .next t) (hs : s.sessionPart.Inv) : t.sessionPart.Inv := by
  rcases exec_next_cases h with ⟨c, -, rfl⟩ | ⟨-, rfl⟩ | ⟨w, wd, rfl, -, rfl⟩ | ⟨n, rfl, -, hp, rfl⟩ | ⟨rfl, -, rfl⟩ |
    ⟨-, -, rfl⟩ | ⟨w, wd, rfl, -, -, ⟨-, rfl⟩ | ⟨-, -, rfl⟩ | ⟨-, -, rfl⟩⟩ | ⟨rfl, rfl⟩
  · exact hs.withErr c
  · exact hs.withErr .ok
  · exact ⟨.zero, nofun, fun _ => rfl⟩
  · obtain ⟨-, hparity, hfill, -⟩ := s.pushBytes_absorbs _ n.toNat
    rw [State.push_frame]
    exact ⟨hs.countGives.add hfill hparity, fun hi => (nomatch hp.symm.trans hi), fun _ => hs.openNoDigest hp⟩
  · exact .of_done hs.countGives rfl
  · exact hs.withErr .ok
  · exact hs
  · exact .of_done ⟨s.hashBroken_lfill wd _, rfl⟩ rfl
  · rw [State.hashBuffer_eq]
    exact .of_done ⟨Nat.mod_mod _ 16, rfl⟩ rfl
  · exact ⟨.zero, fun _ => rfl, nofun⟩

/-- Every step keeps the clauses about the session: reset and the commands do, and no other step writes there. -/
theorem step_sessionPart_inv {s t : State} (h : step s = .next t) (hs : s.sessionPart.Inv) : t.sessionPart.Inv := by
  rcases step_sessionPart_cases h with he | ⟨rest, hev⟩ | ⟨-, l, -, hp⟩
  · rwa [he]
  · obtain rfl : State.assertReset { s with events := rest } = t :=
      Host.Outcome.next.inj ((step_of_cons hev).symm.trans h)
    exact ⟨.zero, fun _ => rfl, nofun⟩
  · rcases perform_next_cases hp with ⟨e, -, rfl⟩ | ⟨i, -, hx⟩
    · exact hs.withErr _
    · exact exec_sessionPart_inv hx hs

/-- Settles O53: the invariant is a part about the buffer space and a part about the session, and every step keeps each. -/
theorem everyStepKeepsTheInvariant : Obligations.EveryStepKeepsTheInvariant := by
  intro s t hs h
  obtain ⟨hsurroundings, hsession⟩ := s.inv_iff.mp hs
  exact t.inv_iff.mpr ⟨step_surroundings_inv h hsurroundings, step_sessionPart_inv h hsession⟩

end Sys2Proof.Machine
end

section
/-! Finalization (42_finalization.md): the tail map and its cascade (R140, R141), extraction and the prefixes of the digest (R144,
R146), and the byte order of a digest word (R145). -/

namespace Sys2Proof.Machine

/-! ### The tail map and the tail cascade -/

theorem tailByte_of_row {t : TailOps} {i : Nat} {row : TailRow} (hrow : (tailMap t)[i]? = some row) (b : Byte) (h : Quad) :
    tailByte t i b h = h.set row.word (tailApply row.op (h.get row.word) (b.setWidth 64 <<< row.shift)) := by
  simp only [tailByte, hrow]

theorem tailByte_of_no_row {t : TailOps} {i : Nat} (hrow : (tailMap t)[i]? = none) (b : Byte) (h : Quad) :
    tailByte t i b h = h := by
  simp only [tailByte, hrow]

/-- The table of R140 against its closed form, row by row. -/
theorem exists_tailMap_row (t : TailOps) {i : Nat} (hi : i < 15) :
    ∃ row, (tailMap t)[i]? = some row ∧ row.word.val = (18 - i) % 4 ∧
      row.shift = (if i ≤ 6 then 8 * i else 8 * (i - 7)) ∧
      [TailOp.add, t.op1, t.op2, t.op3, t.op4, t.op5, t.op6, .add, t.op8, t.op9, t.op10, t.op11, t.op12, t.op13, t.op14][i]? =
        some row.op := by
  interval_cases i <;> exact ⟨_, rfl, rfl, rfl, rfl⟩

/-- Settles O32: the rows are those of the closed form, and a byte is folded in by the operation of its row. -/
theorem tailMapHasItsClosedForm : Obligations.TailMapHasItsClosedForm := by
  intro t i
  refine ⟨fun hi => ?_, fun hi => List.getElem?_eq_none hi⟩
  obtain ⟨row, hrow, hword, hshift, hop⟩ := exists_tailMap_row t hi
  have hfold (op : TailOp) (hrowOp : row.op = op) (b : Byte) (h : Quad) :
      tailByte t i b h = h.set row.word (tailApply op (h.get row.word) (b.setWidth 64 <<< row.shift)) :=
    hrowOp ▸ tailByte_of_row hrow b h
  exact ⟨row, hrow, hword, hshift, hop, fun b h =>
    ⟨fun ho => hfold .add ho b h, fun ho => hfold .or ho b h, fun ho => hfold .xor ho b h⟩⟩

theorem tailAbsorb_eq_foldr (t : TailOps) (b : Nat → Byte) (r : Nat) (h : Quad) :
    tailAbsorb t b r h = (List.range r).foldr (fun i x => tailByte t i (b i) x) h := by
  induction r generalizing h with
  | zero => rfl
  | succ r ih => rw [tailAbsorb, ih, List.range_succ, List.foldr_append, List.foldr_cons, List.foldr_nil]

theorem Quad.ext_get {x y : Quad} (h : ∀ k, x.get k = y.get k) : x = y := by
  cases x; cases y
  exact (Quad.mk.injEq ..).mpr ⟨h 0, h 1, h 2, h 3⟩

theorem tailMap_allAdd_op {i : Nat} {row : TailRow} (hrow : (tailMap allAdd)[i]? = some row) : row.op = .add :=
  (by decide : ∀ row ∈ tailMap allAdd, row.op = .add) row (List.mem_of_getElem? hrow)

/-- Under `ADD` a tail byte adds to each word a summand that does not depend on the hash state. -/
theorem exists_tailByte_allAdd_summand (i : Nat) (b : Byte) :
    ∃ y : Fin 4 → Word, ∀ (h : Quad) (k : Fin 4), (tailByte allAdd i b h).get k = h.get k + y k := by
  cases hrow : (tailMap allAdd)[i]? with
  | none => exact ⟨0, fun h k => by rw [tailByte_of_no_row hrow, Pi.zero_apply, add_zero]⟩
  | some row =>
    refine ⟨Pi.single row.word (b.setWidth 64 <<< row.shift), fun h k => ?_⟩
    rw [tailByte_of_row hrow, tailMap_allAdd_op hrow]
    by_cases hk : k = row.word
    · rw [hk, Quad.get_set_same, Pi.single_eq_same, tailApply]
    · rw [Quad.get_set_other _ _ hk, Pi.single_eq_of_ne hk, add_zero]

/-- Sums commute, so under `ADD` two tail bytes do too (90_conflicts.md C4). -/
theorem tailByte_allAdd_comm (i j : Nat) (b b' : Byte) (h : Quad) :
    tailByte allAdd i b (tailByte allAdd j b' h) = tailByte allAdd j b' (tailByte allAdd i b h) := by
  obtain ⟨y, hy⟩ := exists_tailByte_allAdd_summand i b
  obtain ⟨z, hz⟩ := exists_tailByte_allAdd_summand j b'
  exact Quad.ext_get fun k => by rw [hy, hz, hz, hy, add_right_comm]

theorem tailAbsorb_tailByte_allAdd (b : Nat → Byte) (r j : Nat) (b' : Byte) (h : Quad) :
    tailAbsorb allAdd b r (tailByte allAdd j b' h) = tailByte allAdd j b' (tailAbsorb allAdd b r h) := by
  induction r generalizing h with
  | zero => rfl
  | succ r ih => rw [tailAbsorb, tailAbsorb, tailByte_allAdd_comm, ih]

theorem tailAbsorb_allAdd_eq_tailAscending (b : Nat → Byte) (r : Nat) (h : Quad) :
    tailAbsorb allAdd b r h = tailAscending allAdd b r h := by
  induction r with
  | zero => rfl
  | succ r ih => rw [tailAbsorb, tailAscending, tailAbsorb_tailByte_allAdd, ih]

/-- Settles O33: the cascade's recursion is the descending fold, and under `ADD` its first byte moves to the end. -/
theorem tailCascadeRunsDownwards : Obligations.TailCascadeRunsDownwards :=
  ⟨fun t b r h _ => tailAbsorb_eq_foldr t b r h, fun b r h _ => tailAbsorb_allAdd_eq_tailAscending b r h⟩

/-! ### Digest words -/

theorem emit_le_get_same (k : Fin 4) (g : Word) (d : Quad) : (emit .le k g d).get k = g := Quad.get_set_same d k g

theorem emit_be_get_same (k : Fin 4) (g : Word) (d : Quad) : (emit .be k g d).get k = byteswap64 g :=
  Quad.get_set_same d k (byteswap64 g)

theorem emit_get_other (e : Endian) {k k' : Fin 4} (g : Word) (d : Quad) (h : k' ≠ k) : (emit e k g d).get k' = d.get k' :=
  Quad.get_set_other d _ h

theorem byteOf_emit (e : Endian) (k : Fin 4) (g : Word) (d : Quad) {j : Nat} (hj : j < 8) :
    byteOf ((emit e k g d).get k) j = wr64 e g j := by
  cases e with
  | le => rw [emit_le_get_same, wr64]
  | be => rw [emit_be_get_same, byteswap64, byteOf_packBytes _ (Nat.le_refl 8) hj, wr64]

/-- Settles O30: `DOUT[k]` holds the word itself in little-endian order and its byteswap in big-endian order. -/
theorem digestBytesLieInEndianOrder : Obligations.DigestBytesLieInEndianOrder := by
  intro e k k' g d
  refine ⟨fun j hj => byteOf_emit e k g d hj, ?_, emit_get_other e g d⟩
  rintro rfl
  exact emit_le_get_same k g d

theorem digestWord_eq_neg_add (x y : Word) : 0 - x - y = -(x + y) := by rw [zero_sub, neg_add']

/-- Settles O34: the words of each width are the definition's, and subtracting from 0 does not depend on the order (R101). -/
theorem extractionEmitsTheWordsOfItsWidth : Obligations.ExtractionEmitsTheWordsOfItsWidth := by
  refine ⟨fun c seed h d => ⟨rfl, rfl, rfl⟩, fun c seed h d => ?_⟩
  simp only [extract, digestWord_eq_neg_add, add_comm, and_self]

@[simp] theorem Quad.zero_get (k : Fin 4) : Quad.zero.get k = 0 := by
  match k with
  | 0 | 1 | 2 | 3 => rfl

theorem extract_w64_dout_get (c : Config) (seed : Word) (h d : Quad) {k : Fin 4} (h0 : k ≠ 0) :
    (extract c seed .w64 h d).2.get k = d.get k := emit_get_other c.endian _ d h0

/-- 128 bits emit the digest of 64 bits, and then word 1. -/
theorem extract_w128_dout_get (c : Config) (seed : Word) (h d : Quad) {k : Fin 4} (h1 : k ≠ 1) :
    (extract c seed .w128 h d).2.get k = (extract c seed .w64 h d).2.get k := emit_get_other c.endian _ _ h1

/-- 256 bits emit the digest of 128 bits, and then words 2 and 3. -/
theorem extract_w256_dout_get (c : Config) (seed : Word) (h d : Quad) {k : Fin 4} (h2 : k ≠ 2) (h3 : k ≠ 3) :
    (extract c seed .w256 h d).2.get k = (extract c seed .w128 h d).2.get k :=
  (emit_get_other c.endian _ _ h3).trans (emit_get_other c.endian _ _ h2)

/-- Settles O38: a wider extraction begins with the narrower one and leaves the words of the narrower one as they are. -/
theorem smallerDigestsArePrefixes : Obligations.SmallerDigestsArePrefixes := by
  intro c seed L b n
  have h64 (k : Fin 4) (h0 : k ≠ 0) : (digestWords c seed L b n .w64).get k = 0 :=
    (extract_w64_dout_get c seed _ _ h0).trans (Quad.zero_get k)
  have h128 (k : Fin 4) (h1 : k ≠ 1) : (digestWords c seed L b n .w128).get k = (digestWords c seed L b n .w64).get k :=
    extract_w128_dout_get c seed _ _ h1
  have h256 (k : Fin 4) (h2 : k ≠ 2) (h3 : k ≠ 3) :
      (digestWords c seed L b n .w256).get k = (digestWords c seed L b n .w128).get k :=
    extract_w256_dout_get c seed _ _ h2 h3
  have h128_256 := (h256 0 (by decide) (by decide)).symm
  refine ⟨?_, h128_256, (h256 1 (by decide) (by decide)).symm, h64 1 (by decide), h64 2 (by decide), h64 3 (by decide), ?_, ?_⟩
  · exact (h128 0 (by decide)).symm.trans h128_256
  · exact (h128 2 (by decide)).trans (h64 2 (by decide))
  · exact (h128 3 (by decide)).trans (h64 3 (by decide))

end Sys2Proof.Machine
end

section
/-! The commands (43_commands.md): the equations of their meanings, one per branch, and what follows from them about one command
(R162 to R169, R171 to R176), about issue and completion (R160, R161, R178), and about a whole session (R170). -/

namespace Sys2Proof.Machine

/-! ### The meanings, branch by branch -/

theorem exec_init (s : State) (wd : Width) :
    exec (.init wd.code) s = .next { s.openSession wd (s.latched (encode (.init wd.code))).seed
      (s.latched (encode (.init wd.code))).length with err := .ok, running := none } := by
  simp only [exec, execInit, widthOf_code, accept]

theorem exec_init_rejected {w : BitVec 2} (hw : widthOf w = none) (s : State) :
    exec (.init w) s = .next { s with err := .badWidth, running := none } := by
  simp only [exec, execInit, hw, reject]

theorem exec_absorb_tooMany {n : BitVec 5} (s : State) (hn : 16 < n.toNat) :
    exec (.absorb n) s = .next { s with err := .badCount, running := none } := if_pos hn

/-- ABSORB of a supported count outside `OPEN` (R168). -/
theorem exec_absorb_rejected {s : State} {n : BitVec 5} {c : ResultCode} (hn : n.toNat ≤ 16) (hc : absorbCheck s = c)
    (hrejected : c ≠ .ok) : exec (.absorb n) s = .next { s with err := c, running := none } := by
  simp only [exec, execAbsorb, if_neg (Nat.not_lt.mpr hn), hc, reject]

theorem absorbCheck_ok {s : State} : absorbCheck s = .ok ↔ s.phase = .opened := by
  rcases s.phase.cases_eq with hp | hp | hp <;> simp [absorbCheck, hp]

theorem exec_final_idle {s : State} (h : s.phase = .idle) :
    exec .final s = .next { s with err := .noSession, running := none } := by
  simp only [exec, execFinal, finalCheck, h, reject]

theorem exec_final_opened {s : State} (h : s.phase = .opened) :
    exec .final s =
      .next { s.closeAndExtract s.lbufByte s.lfill.val s.width with phase := .done, err := .ok, running := none } := by
  simp only [exec, execFinal, finalCheck, h, State.finish_opened h, accept]

theorem exec_final_done {s : State} (h : s.phase = .done) : exec .final s = .next { s with err := .ok, running := none } := by
  simp only [exec, execFinal, finalCheck, h, State.finish_done h, accept]

theorem exec_oneshot_rejected {w : BitVec 2} (hw : widthOf w = none) (s : State) :
    exec (.oneshot w) s = .next { s with err := .badWidth, running := none } := by
  simp only [exec, execOneshot, hw, reject]

/-- ONESHOT of a supported width is rejected by its range check alone (R174). -/
theorem exec_oneshot_outOfRange {s : State} {l : Latched} {wd : Width} (hl : s.latched (encode (.oneshot wd.code)) = l)
    (hr : rangeCheck s l = .range) : exec (.oneshot wd.code) s = .next { s with err := .range, running := none } := by
  simp only [exec, execOneshot, widthOf_code, hl, hr, reject]

/-- ONESHOT in range with a read that is never answered (20_memory.md R63). -/
theorem exec_oneshot_stalls {s : State} {l : Latched} {wd : Width} (hl : s.latched (encode (.oneshot wd.code)) = l)
    (hr : rangeCheck s l = .ok) (hu : s.unanswered l.srcAddr.toNat l.length.toNat = true) :
    exec (.oneshot wd.code) s = .next { s with running := some l } := by
  simp only [exec, execOneshot, widthOf_code, hl, hr, hu, if_true, stall]

/-- ONESHOT in range, with every read answered and the duties kept (R173). -/
theorem exec_oneshot_kept {s : State} {l : Latched} {wd : Width} (hl : s.latched (encode (.oneshot wd.code)) = l)
    (hr : rangeCheck s l = .ok) (hu : s.unanswered l.srcAddr.toNat l.length.toNat = false) (hk : l.broken = false) :
    exec (.oneshot wd.code) s =
      .next { s.hashBuffer wd l.seed l.length l.srcAddr.toNat with err := .ok, running := none } := by
  rw [exec_oneshot_inRange hl hr hu, hk, if_neg Bool.false_ne_true]

/-- The same with a duty broken (20_memory.md R66). -/
theorem exec_oneshot_broken {s : State} {l : Latched} {wd : Width} (hl : s.latched (encode (.oneshot wd.code)) = l)
    (hr : rangeCheck s l = .ok) (hu : s.unanswered l.srcAddr.toNat l.length.toNat = false) (hb : l.broken = true) :
    exec (.oneshot wd.code) s = .next { s.hashBroken wd l with err := .ok, running := none } := by
  rw [exec_oneshot_inRange hl hr hu, hb, if_pos rfl]

/-- What an ONESHOT of a supported width has done when it completes: nothing where it is out of range, else the effects of R173 where
the duties on its buffer are kept (R173, R174). -/
theorem exec_oneshot_completed_cases {s t : State} {l : Latched} {wd : Width}
    (hl : s.latched (encode (.oneshot wd.code)) = l) (h : exec (.oneshot wd.code) s = .next t) (hidle : t.running = none) :
    (rangeCheck s l = .range ∧ t = { s with err := .range, running := none }) ∨
      (rangeCheck s l = .ok ∧ t.err = .ok ∧
        (l.broken = false →
          t = { s.hashBuffer wd l.seed l.length l.srcAddr.toNat with err := .ok, running := none })) := by
  rcases rangeCheck_eq s l with hr | hr
  · right
    rcases hu : s.unanswered l.srcAddr.toNat l.length.toNat with _ | _
    · rcases hb : l.broken with _ | _
      · rw [exec_oneshot_kept hl hr hu hb] at h
        cases h
        exact ⟨hr, rfl, fun _ => rfl⟩
      · rw [exec_oneshot_broken hl hr hu hb] at h
        cases h
        exact ⟨hr, rfl, nofun⟩
    · rw [exec_oneshot_stalls hl hr hu] at h
      cases h
      cases hidle
  · left
    rw [exec_oneshot_outOfRange hl hr] at h
    cases h
    exact ⟨hr, rfl⟩

theorem rangeCheck_range {s : State} {l : Latched} :
    rangeCheck s l = .range ↔
      2 ^ addrWidth s.cfg ≤ l.srcAddr.toNat ∨ 2 ^ addrWidth s.cfg < l.srcAddr.toNat + l.length.toNat := by
  have hfails : rangeCheck s l = .range ↔ ¬rangeCheck s l = .ok := by
    rcases rangeCheck_eq s l with hr | hr <;> simp [hr]
  rw [hfails, rangeCheck_ok, not_and_or, Nat.not_lt, Nat.not_le]

/-! ### Checks and rejection -/

/-- A command that completes with a code other than OK has written only that code (R164). -/
theorem exec_rejected {i : Instr} {s t : State} (h : exec i s = .next t) (hidle : t.running = none) (herr : t.err ≠ .ok) :
    t = { s with err := t.err, running := none } := by
  rcases exec_next_cases h with ⟨c, -, rfl⟩ | ⟨-, rfl⟩ | ⟨w, wd, -, -, rfl⟩ | ⟨n, -, -, -, rfl⟩ | ⟨-, -, rfl⟩ | ⟨-, -, rfl⟩ |
    ⟨w, wd, -, -, -, ⟨-, rfl⟩ | ⟨-, -, rfl⟩ | ⟨-, -, rfl⟩⟩ | ⟨-, rfl⟩
  case inl => rfl
  case inr.inr.inr.inr.inr.inr.inl.inl => cases hidle
  all_goals exact absurd rfl herr

/-- Settles O6: the decoder's rejection writes only its code, and so does that of a decoded command. -/
theorem rejectedCommandWritesOnlyErr : Obligations.RejectedCommandWritesOnlyErr := by
  intro s t l h hidle herr
  rcases perform_next_cases h with ⟨e, -, rfl⟩ | ⟨i, -, hx⟩
  · rfl
  · exact exec_rejected hx hidle herr

/-- Settles O10: the phase check of each command gives the code. -/
theorem sessionCommandsNeedTheirPhase : Obligations.SessionCommandsNeedTheirPhase := by
  refine ⟨fun s n hn hp => exec_absorb_rejected hn ?_ nofun, fun s n hn hp => exec_absorb_rejected hn ?_ nofun,
    fun s => exec_final_idle⟩
  · simp only [absorbCheck, hp]
  · simp only [absorbCheck, hp]

/-- Settles O11: the range check is the only one an ONESHOT of a supported width can fail, and it fails exactly out of range. -/
theorem oneshotOutOfRangeIsRejected : Obligations.OneshotOutOfRangeIsRejected := by
  intro s wd l
  refine ⟨fun hout => exec_oneshot_outOfRange rfl (rangeCheck_range.mpr hout), fun t h hidle herr => ?_⟩
  rcases exec_oneshot_completed_cases rfl h hidle with ⟨hr, -⟩ | ⟨-, hok, -⟩
  · exact rangeCheck_range.mp hr
  · cases hok.symm.trans herr

/-! ### NOP, INIT and CLEAR -/

/-- Settles O12: NOP is the bare completion of an accepted command. -/
theorem nopSetsErrOkOnly : Obligations.NopSetsErrOkOnly := by
  refine fun s => ⟨rfl, fun t h a => ?_⟩
  obtain rfl := accept_next h
  rfl

/-- Settles O13: the body of INIT is the update listed. -/
theorem initOpensASession : Obligations.InitOpensASession := fun s wd => exec_init s wd

/-- Settles O24: the body of CLEAR is the update listed, and every field of `STATUS` is then 0. -/
theorem clearReturnsToIdle : Obligations.ClearReturnsToIdle := by
  refine fun s => ⟨rfl, fun t h => ?_⟩
  obtain rfl := accept_next h
  refine ⟨?_, fun _ => rfl⟩
  simp only [State.status, State.busy, State.clearCore]
  decide

/-! ### ABSORB reads its `N` bytes and no other -/

/-- `push` with another running command, `DIN0` and `DIN1` beside it, and data that agree on the bytes pushed. -/
theorem State.push_of_operands (s : State) (r : Option Latched) (d0 d1 : Word) {d d' : Nat → Byte} {n : Nat}
    (h : ∀ k < n, d' k = d k) :
    ({ s with running := r, din0 := d0, din1 := d1 } : State).push d' n =
      { s.push d n with running := r, din0 := d0, din1 := d1 } := by
  simp only [State.push, State.pushBytes_of_operands, s.pushBytes_congr h]

/-- ABSORB in two states that differ in the running command, `DIN0` and `DIN1`, and whose data agree on the bytes below `N`. -/
theorem exec_absorb_of_operands {s u : State} {l l' : Latched} {n : BitVec 5} {r : Option Latched} {d0 d1 : Word}
    (hu : { s with running := r, din0 := d0, din1 := d1 } = u) (hl : s.latched (encode (.absorb n)) = l)
    (hl' : u.latched (encode (.absorb n)) = l')
    (hd : ∀ k < n.toNat, dataByte l'.din0 l'.din1 k = dataByte l.din0 l.din1 k) :
    ∃ t, exec (.absorb n) s = .next t ∧ exec (.absorb n) u = .next { t with din0 := d0, din1 := d1 } := by
  by_cases hn : n.toNat ≤ 16
  · by_cases hc : absorbCheck s = .ok
    · have hopened := absorbCheck_ok.mp hc
      refine ⟨_, exec_absorb_opened hopened hn, ?_⟩
      rw [exec_absorb_opened (hu ▸ hopened) hn, hl, hl', ← hu, s.push_of_operands r d0 d1 hd]
    · subst hu
      exact ⟨_, exec_absorb_rejected hn rfl hc, exec_absorb_rejected hn rfl hc⟩
  · have hmany := Nat.not_le.mp hn
    subst hu
    exact ⟨_, exec_absorb_tooMany s hmany, exec_absorb_tooMany _ hmany⟩

/-- Settles O16: the data bytes are the latched ones, or those that an issue would latch. -/
theorem absorbIgnoresBytesFromNOn : Obligations.AbsorbIgnoresBytesFromNOn := by
  refine ⟨fun s l n d0 d1 hl hd => ?_, fun s n d0 d1 hidle hd => ?_⟩
  · obtain ⟨t, hs, hu⟩ := exec_absorb_of_operands (r := some { l with din0 := d0, din1 := d1 }) (d0 := s.din0) (d1 := s.din1)
      rfl (State.latched_of_running hl _) rfl hd
    obtain ⟨-, -, -, -, hdin0, hdin1, -⟩ := exec_frame hs
    exact ⟨t, hs, hu.trans (by rw [← hdin0, ← hdin1])⟩
  · exact exec_absorb_of_operands (r := none) (by rw [← hidle]) (State.latched_of_idle hidle _)
      (State.latched_of_idle (s := { s with din0 := d0, din1 := d1 }) hidle _) hd

/-! ### FINAL -/

/-- Settles O17: close and extract are the formulas of R143 and R144. -/
theorem finalClosesTheSession : Obligations.FinalClosesTheSession :=
  ⟨fun _ => exec_final_opened, fun _ => exec_final_done⟩

/-- What an accepted FINAL leaves (R171). -/
theorem exec_final_accepted {s t : State} (h : exec .final s = .next t) (herr : t.err = .ok) :
    t.phase = .done ∧ t.running = none := by
  rcases s.phase.cases_eq with hp | hp | hp
  · rw [exec_final_idle hp] at h
    cases h
    cases herr
  · rw [exec_final_opened hp] at h
    cases h
    exact ⟨rfl, rfl⟩
  · rw [exec_final_done hp] at h
    cases h
    exact ⟨hp, rfl⟩

/-- Settles O18: an accepted FINAL leaves `DONE`, `ERR = OK` and `BUSY = 0`, where one more FINAL changes nothing. -/
theorem repeatedFinalChangesNothing : Obligations.RepeatedFinalChangesNothing := by
  intro n s t h herr
  obtain ⟨hdone, hidle⟩ := exec_final_accepted h herr
  have hfixed : exec .final t = .next t := by rw [exec_final_done hdone, ← herr, ← hidle]
  induction n with
  | zero => rfl
  | succ n ih => rw [execTimes, hfixed, andThen, ih]

/-! ### ONESHOT -/

/-- Settles O20: the body of ONESHOT is the update `State.hashBuffer_eq` gives. -/
theorem oneshotHashesTheBuffer : Obligations.OneshotHashesTheBuffer := by
  intro s wd l A L hlo hhi hanswered hkept x
  refine ⟨_, exec_oneshot_kept rfl (rangeCheck_ok.mpr ⟨hlo, hhi⟩) hanswered hkept, ?_⟩
  rw [State.hashBuffer_eq]
  exact ⟨rfl, rfl, rfl, rfl, rfl, rfl, rfl, rfl, Nat.mod_mod _ 16, rfl, fun k hk => tailBuffer_byte _ _ k hk, rfl, fun _ => rfl⟩

/-- The digest reads the `n` bytes of the message and no other (R175). -/
theorem digestWords_congr {c : Config} {seed L : Word} {b b' : Nat → Byte} {n : Nat} {w : Width} (hb : ∀ k < n, b k = b' k) :
    digestWords c seed L b n w = digestWords c seed L b' n w := by
  have hlanes : laneRun c seed b (n / 16) (initState seed L) = laneRun c seed b' (n / 16) (initState seed L) :=
    laneRun_congr fun k hk => hb k (by omega)
  rw [digestWords, digestWords, closedState, closedState, hlanes, closeState_congr fun k hk => hb _ (by omega)]

/-- The digest that ONESHOT leaves (R173). -/
theorem State.hashBuffer_dout (s : State) (w : Width) (sd L : Word) (A : Nat) :
    (s.hashBuffer w sd L A).dout = digestWords s.cfg sd L (s.memRead A) L.toNat w := by
  rw [State.hashBuffer_eq]
  rfl

/-- The digest of an accepted ONESHOT whose duties were kept. -/
theorem exec_oneshot_dout {s t : State} {l : Latched} {wd : Width} (hl : s.latched (encode (.oneshot wd.code)) = l)
    (h : exec (.oneshot wd.code) s = .next t) (hidle : t.running = none) (herr : t.err = .ok) (hk : l.broken = false) :
    t.dout = digestWords s.cfg l.seed l.length (s.memRead l.srcAddr.toNat) l.length.toNat wd := by
  rcases exec_oneshot_completed_cases hl h hidle with ⟨-, rfl⟩ | ⟨-, -, ht⟩
  · cases herr
  · rw [ht hk]
    exact s.hashBuffer_dout wd l.seed l.length l.srcAddr.toNat

/-- Settles O23: both digests are `digestWords` of the same build, seed, length and bytes. -/
theorem oneshotIsDeterministic : Obligations.OneshotIsDeterministic := by
  intro s s' t t' wd hcfg l l' hseed hlength hk hk' hbytes h h' hidle hidle' herr herr'
  rw [exec_oneshot_dout (l := l) rfl h hidle herr hk, exec_oneshot_dout (l := l') rfl h' hidle' herr' hk', ← hcfg, ← hseed,
    ← hlength]
  exact digestWords_congr hbytes

/-! ### Issue and completion -/

theorem perform_of_decode_ok {s : State} {l : Latched} {i : Instr} (h : decode l.cw = .ok i) : s.perform l = exec i s := by
  unfold State.perform
  rw [h]

/-- The step in which the latency of the running command elapses performs it, whether the schedule says so or is empty (R161). -/
theorem step_of_nil_running {s : State} {l : Latched} (hl : s.running = some l) (he : s.events = []) :
    step s = s.perform l := by
  rw [step_of_nil he, State.advance_of_running hl]

theorem step_of_elapse_running {s : State} {l : Latched} {rest : List Event} (hl : s.running = some l)
    (he : s.events = .elapse :: rest) : step s = State.perform { s with events := rest } l :=
  (step_of_cons he).trans (State.advance_of_running (s := { s with events := rest }) hl)

/-- Settles O39: the step is `perform`, which is the meaning of the word or the rejection with the decoder's code. -/
theorem stepPerformsTheIssuedCommand : Obligations.StepPerformsTheIssuedCommand := by
  refine fun s l hl => ⟨fun i hi => ⟨fun he => ?_, fun rest he => ?_⟩, fun e hd => ⟨fun he => ?_, fun rest he => ?_⟩⟩
  · rw [step_of_nil_running hl he, perform_of_decode_ok hi]
  · rw [step_of_elapse_running hl he, perform_of_decode_ok hi]
  · rw [step_of_nil_running hl he, perform_of_decode_error hd]
  · rw [step_of_elapse_running hl he, perform_of_decode_error hd]

/-- A byte of the buffer has a value marked at the issue exactly when a store to it is staged (20_memory.md R66). -/
theorem State.exists_mem_heldAt_latch {s : State} {cw : Word} {a : Nat} :
    (∃ v, v ∈ (s.latch cw).heldAt a) ↔
      (s.srcAddr.toNat ≤ a ∧ a < s.srcAddr.toNat + s.length.toNat) ∧ ∃ c ∈ s.staged, c.1 = a := by
  simp only [State.mem_heldAt_latch]
  constructor
  · rintro ⟨v, hin, c, hc, ha, -⟩
    exact ⟨hin, c, hc, ha⟩
  · rintro ⟨hin, c, hc, ha⟩
    exact ⟨c.2, hin, c, hc, ha, .inr rfl⟩

/-- Settles O40: the write issues the command, and the issue latches it with its marks. -/
theorem ctrlWriteIssuesACommand : Obligations.CtrlWriteIssuesACommand := by
  intro s cw rest hidle he
  refine ⟨s.latch cw, ?_, rfl, rfl, rfl, rfl, rfl, rfl, fun a => ⟨?_, fun v => State.mem_heldAt_latch, State.unstableAt_latch⟩⟩
  · have hbusy : State.busy { s with events := rest } = false := by simp only [State.busy, hidle, Option.isSome_none]
    rw [step_writeEvent he, State.writeReg, hbusy, if_neg Bool.false_ne_true]
    rfl
  · rw [Latched.affected_iff, State.exists_mem_heldAt_latch, State.unstableAt_latch, and_or_left]

/-- Settles O43: a write to a register other than `CTRL` stores it or is ignored. -/
theorem operandRegistersStoreTheirWrites : Obligations.OperandRegistersStoreTheirWrites := by
  intro s r v rest he hr
  refine ⟨_, step_writeEvent he, ?_⟩
  cases r with
  | ctrl => exact absurd rfl hr
  | _ => rfl

/-! ### The operand registers of a running command -/

theorem State.push_withOperands (s : State) (x : Nat → Byte) (n : Nat) (a b c d e : Word) :
    (s.withOperands a b c d e).push x n = (s.push x n).withOperands a b c d e := by
  rw [State.push, State.pushBytes_withOperands]
  rfl

theorem State.hashBuffer_withOperands (s : State) (w : Width) (sd L : Word) (A : Nat) (a b c d e : Word) :
    (s.withOperands a b c d e).hashBuffer w sd L A = (s.hashBuffer w sd L A).withOperands a b c d e := by
  rw [State.hashBuffer_eq, State.hashBuffer_eq]
  rfl

section
variable {s : State} {l : Latched} (a b c d e : Word)

theorem State.withOperands_latched (hl : s.running = some l) (cw : Word) : (s.withOperands a b c d e).latched cw = l :=
  State.latched_of_running (s := s.withOperands a b c d e) hl cw

theorem exec_init_withOperands (hl : s.running = some l) (w : BitVec 2) :
    ∃ t, exec (.init w) s = .next t ∧ exec (.init w) (s.withOperands a b c d e) = .next (t.withOperands a b c d e) := by
  rcases hw : widthOf w with _ | wd
  · exact ⟨_, exec_init_rejected hw s, exec_init_rejected hw _⟩
  · obtain rfl := widthOf_eq_some.mp hw
    refine ⟨_, exec_init s wd, ?_⟩
    rw [exec_init, State.withOperands_latched a b c d e hl, State.latched_of_running hl]
    rfl

theorem exec_absorb_withOperands (hl : s.running = some l) (n : BitVec 5) :
    ∃ t, exec (.absorb n) s = .next t ∧ exec (.absorb n) (s.withOperands a b c d e) = .next (t.withOperands a b c d e) := by
  by_cases hn : n.toNat ≤ 16
  · by_cases hc : absorbCheck s = .ok
    · have hopened := absorbCheck_ok.mp hc
      have hopened' : (s.withOperands a b c d e).phase = .opened := hopened
      refine ⟨_, exec_absorb_opened hopened hn, ?_⟩
      rw [exec_absorb_opened hopened' hn, State.withOperands_latched a b c d e hl, State.latched_of_running hl,
        State.push_withOperands]
      rfl
    · exact ⟨_, exec_absorb_rejected hn rfl hc, exec_absorb_rejected hn rfl hc⟩
  · have hmany := Nat.not_le.mp hn
    exact ⟨_, exec_absorb_tooMany s hmany, exec_absorb_tooMany _ hmany⟩

/-- FINAL reads no operand at all. -/
theorem exec_final_withOperands (s : State) :
    ∃ t, exec .final s = .next t ∧ exec .final (s.withOperands a b c d e) = .next (t.withOperands a b c d e) := by
  rcases s.phase.cases_eq with hp | hp | hp
  · exact ⟨_, exec_final_idle hp, exec_final_idle hp⟩
  · exact ⟨_, exec_final_opened hp, exec_final_opened hp⟩
  · exact ⟨_, exec_final_done hp, exec_final_done hp⟩

theorem exec_oneshot_withOperands (hl : s.running = some l) (w : BitVec 2) :
    ∃ t, exec (.oneshot w) s = .next t ∧ exec (.oneshot w) (s.withOperands a b c d e) = .next (t.withOperands a b c d e) := by
  rcases hw : widthOf w with _ | wd
  · exact ⟨_, exec_oneshot_rejected hw s, exec_oneshot_rejected hw _⟩
  · obtain rfl := widthOf_eq_some.mp hw
    have hs := State.latched_of_running hl (encode (.oneshot wd.code))
    have hs' := State.withOperands_latched a b c d e hl (encode (.oneshot wd.code))
    rcases rangeCheck_eq s l with hr | hr
    · rcases hu : s.unanswered l.srcAddr.toNat l.length.toNat with _ | _
      · rcases hb : l.broken with _ | _
        · refine ⟨_, exec_oneshot_kept hs hr hu hb, ?_⟩
          rw [exec_oneshot_kept hs' hr hu hb, State.hashBuffer_withOperands]
          rfl
        · exact ⟨_, exec_oneshot_broken hs hr hu hb, exec_oneshot_broken hs' hr hu hb⟩
      · exact ⟨_, exec_oneshot_stalls hs hr hu, exec_oneshot_stalls hs' hr hu⟩
    · exact ⟨_, exec_oneshot_outOfRange hs hr, exec_oneshot_outOfRange hs' hr⟩

/-- Each meaning reads the latched operands, and keeps what stands in the operand registers (R160, R243). -/
theorem exec_withOperands (hl : s.running = some l) (i : Instr) :
    ∃ t, exec i s = .next t ∧ exec i (s.withOperands a b c d e) = .next (t.withOperands a b c d e) := by
  cases i with
  | nop => exact ⟨_, rfl, rfl⟩
  | init w => exact exec_init_withOperands a b c d e hl w
  | absorb n => exact exec_absorb_withOperands a b c d e hl n
  | final => exact exec_final_withOperands a b c d e s
  | oneshot w => exact exec_oneshot_withOperands a b c d e hl w
  | clear => exact ⟨_, rfl, rfl⟩

end

/-- Settles O42: the state the command leaves is the one of `exec_withOperands`. -/
theorem operandWritesDoNotTouchTheRunningCommand : Obligations.OperandWritesDoNotTouchTheRunningCommand := by
  intro s t l i a b c d e hl h
  obtain ⟨u, hu, hops⟩ := exec_withOperands a b c d e hl i
  obtain rfl : t = u := Host.Outcome.next.inj (h.symm.trans hu)
  exact hops

/-! ### A whole session -/

/-- FINAL on a session that has absorbed the bytes `D` (R170, R171): the digest of these bytes. -/
theorem exec_final_digest {t : State} {seed L : Word} {D : Nat → Byte} {T : Nat} (hopened : t.phase = .opened)
    (hhash : t.h = laneRun t.cfg seed D (T / 16) (initState seed L)) (hfill : t.lfill.val = T % 16)
    (hrest : ∀ k < T % 16, t.lbufByte k = D (16 * (T / 16) + k)) (hseed : t.sseed = seed) (hdout : t.dout = Quad.zero) :
    ∃ v, exec .final t = .next v ∧ v.phase = .done ∧ v.err = .ok ∧ v.dout = digestWords t.cfg seed L D T t.width := by
  refine ⟨_, exec_final_opened hopened, rfl, rfl, ?_⟩
  show (extract t.cfg t.sseed t.width (closeState t.cfg t.sseed t.lbufByte t.lfill.val t.h) t.dout).2 = _
  rw [hfill, closeState_congr hrest, hhash, hseed, hdout]
  rfl

/-- Settles O36: INIT, then the ABSORBs by `chunkingDoesNotMatter`, then FINAL. -/
theorem sessionDigestIsTheDigestOfItsBytes : Obligations.SessionDigestIsTheDigestOfItsBytes := by
  intro s wd chunks hidle hlen
  have hinit := exec_init s wd
  rw [State.latched_of_idle hidle] at hinit
  obtain ⟨t, ht, hhash, -, hfill, -, hrest, hopened, hseed, hwidth, hdout, hcfg⟩ :=
    chunkingDoesNotMatter { s.openSession wd s.seed s.length with err := .ok, running := none } chunks rfl rfl rfl rfl rfl hlen
  rw [← hcfg] at hhash
  obtain ⟨v, hv, hdone, hok, hdigest⟩ := exec_final_digest hopened hhash hfill hrest hseed hdout
  rw [hcfg, hwidth] at hdigest
  refine ⟨v, ?_, hdone, hok, hdigest⟩
  calc session wd chunks s
    _ = andThen (absorbChunks chunks { s.openSession wd s.seed s.length with err := .ok, running := none }) (exec .final) :=
      congrArg (andThen · _) hinit
    _ = exec .final t := congrArg (andThen · _) ht
    _ = .next v := hv

/-- Settles O37: both digests are `digestWords` of the same bytes, with the declared length their number. -/
theorem sessionEqualsOneshotEqualsRainbow : Obligations.SessionEqualsOneshotEqualsRainbow := by
  intro s u wd chunks hidle hlen hdeclared hlt huidle hcfg hseed hlength hbytes hlo hhi hanswered hkept
  have hnum : s.length.toNat = chunks.flatten.length := by rw [hdeclared, BitVec.toNat_ofNat, Nat.mod_eq_of_lt hlt]
  obtain ⟨t, ht, -, -, htdout⟩ := sessionDigestIsTheDigestOfItsBytes s wd chunks hidle hlen
  rw [State.latched_of_idle huidle] at hkept
  have hv := exec_oneshot_kept (State.latched_of_idle huidle _) (rangeCheck_ok.mpr ⟨hlo, hhi⟩) hanswered hkept
  have hrainbow : digestWords s.cfg s.seed s.length (fun k => chunks.flatten.getD k 0) chunks.flatten.length wd =
      rainbow s.cfg chunks.flatten s.seed wd := by rw [rainbow, hdeclared]
  have hvdout : (u.hashBuffer wd u.seed u.length u.srcAddr.toNat).dout = rainbow s.cfg chunks.flatten s.seed wd :=
    calc (u.hashBuffer wd u.seed u.length u.srcAddr.toNat).dout
      _ = digestWords s.cfg s.seed s.length (u.memRead u.srcAddr.toNat) chunks.flatten.length wd := by
        rw [State.hashBuffer_dout, hcfg, hseed, hlength, hnum]
      _ = digestWords s.cfg s.seed s.length (fun k => chunks.flatten.getD k 0) chunks.flatten.length wd :=
        digestWords_congr hbytes
      _ = rainbow s.cfg chunks.flatten s.seed wd := hrainbow
  exact ⟨t, _, ht, hv, htdout.trans (hrainbow.trans hvdout.symm), hvdout⟩

end Sys2Proof.Machine
end

section
/-! The result codes (60_exceptions.md): the code of a command is the one of the spec's check list (R203), so that every command is
answered (R204, R206) with a code of its own (R201); and the sticky bit of a dropped command (R205). -/

namespace Sys2Proof.Machine

/-! ### The check list of one command -/

/-- What is left of the check list of R203 for the word of a command, whose reserved and unused fields are 0: the range of its
operand, then the state. -/
def commandCheck (i : Instr) (s : State) (l : Latched) : ResultCode :=
  match i with
  | .nop => .ok
  | .init w => if w = 3#2 then .badWidth else .ok
  | .absorb n => if 16 < n.toNat then .badCount else absorbCheck s
  | .final => finalCheck s
  | .oneshot w => if w = 3#2 then .badWidth else rangeCheck s l
  | .clear => .ok

/-- The first four lines of the list turn away the words of R85 and R86. -/
theorem checkCode_of_hasReservedField (s : State) {l : Latched} (h : HasReservedField l.cw) : checkCode s l = .badOp := by
  by_cases hreserved : 6 ≤ (opField l.cw).toNat ∨ reservedLow l.cw ≠ 0#2 ∨ reservedHigh l.cw ≠ 0#51
  · exact if_pos hreserved
  · rw [HasReservedField, ← or_assoc (a := reservedLow l.cw ≠ 0), ← or_assoc] at h
    rcases h.resolve_left hreserved with ⟨ho, (hw : wField l.cw ≠ 0#2)⟩ | ⟨ho, (hn : nField l.cw ≠ 0#5)⟩
    · rcases ho with ho | ho | ho | ho <;> simp [checkCode, ho, hw]
    · rcases ho with ho | ho | ho | ho | ho <;> simp [checkCode, ho, hn]

theorem rangeCheck_eq_ite (s : State) (l : Latched) :
    rangeCheck s l =
      if 2 ^ addrWidth s.cfg ≤ l.srcAddr.toNat ∨ 2 ^ addrWidth s.cfg < l.srcAddr.toNat + l.length.toNat then .range else .ok := by
  split
  · next hout => exact rangeCheck_range.mpr hout
  · next hin => exact (rangeCheck_eq s l).resolve_right (mt rangeCheck_range.mp hin)

theorem checkCode_of_encode (s : State) {l : Latched} {i : Instr} (h : encode i = l.cw) : checkCode s l = commandCheck i s l := by
  obtain ⟨hop, hlow, hhigh, hw, hn⟩ := (encode_eq_iff_fields i l.cw).mp h
  simp only [encode_operands] at hw hn
  simp only [checkCode, hop, hlow, hhigh, hw, hn]
  cases i with
  | nop => simp [commandCheck, Instr.opcode]
  | init w => simp [commandCheck, Instr.opcode]
  | absorb n => rcases s.phase.cases_eq with hp | hp | hp <;> simp [commandCheck, Instr.opcode, absorbCheck, hp]
  | final => rcases s.phase.cases_eq with hp | hp | hp <;> simp [commandCheck, Instr.opcode, finalCheck, hp]
  | oneshot w => simp [commandCheck, Instr.opcode, rangeCheck_eq_ite]
  | clear => simp [commandCheck, Instr.opcode]

/-! ### The answer of one command -/

/-- A word of a command is performed as that command also where the decoder rejects it: the meaning checks the operand again. -/
theorem perform_of_encode (s : State) {l : Latched} {i : Instr} (h : encode i = l.cw) : s.perform l = exec i s := by
  rcases hwf : i.wf with _ | _
  · have hd := (decode_encode_eq_error_iff i _).mpr ⟨hwf, rfl⟩
    rw [h] at hd
    rw [perform_of_decode_error hd]
    cases i with
    | init w => exact (exec_init_rejected (widthOf_eq_none.mpr (by simpa [Instr.wf] using hwf)) s).symm
    | absorb n => exact (exec_absorb_tooMany s (by simpa [Instr.wf] using hwf)).symm
    | oneshot w => exact (exec_oneshot_rejected (widthOf_eq_none.mpr (by simpa [Instr.wf] using hwf)) s).symm
    | _ => cases hwf
  · exact perform_of_decode_ok ((decode_eq_ok_iff _ i).mpr ⟨hwf, h⟩)

/-- What a command answers, by its check list: rejected with the code that is not OK; else accepted, or waiting for a read that is
never answered (20_memory.md R63). -/
inductive Answers (i : Instr) (s : State) (l : Latched) (t : State) : Prop where
  | rejected {c : ResultCode} (hc : commandCheck i s l = c) (hfails : c ≠ .ok) (ht : t = { s with err := c, running := none })
  | accepted (hpasses : commandCheck i s l = .ok) (herr : t.err = .ok) (hidle : t.running = none)
  | stalled (hpasses : commandCheck i s l = .ok) (hu : s.unanswered l.srcAddr.toNat l.length.toNat = true)
      (ht : t = { s with running := some l })

theorem exec_init_answers (s : State) (l : Latched) (w : BitVec 2) :
    ∃ t, exec (.init w) s = .next t ∧ Answers (.init w) s l t := by
  rcases hw : widthOf w with _ | wd
  · have hc : commandCheck (.init w) s l = .badWidth := if_pos (widthOf_eq_none.mp hw)
    exact ⟨_, exec_init_rejected hw s, .rejected hc nofun rfl⟩
  · have hc : commandCheck (.init w) s l = .ok := if_neg fun h3 => nomatch hw.symm.trans (widthOf_eq_none.mpr h3)
    obtain rfl := widthOf_eq_some.mp hw
    exact ⟨_, exec_init s wd, .accepted hc rfl rfl⟩

theorem exec_absorb_answers (s : State) (l : Latched) (n : BitVec 5) :
    ∃ t, exec (.absorb n) s = .next t ∧ Answers (.absorb n) s l t := by
  by_cases hn : 16 < n.toNat
  · have hc : commandCheck (.absorb n) s l = .badCount := if_pos hn
    exact ⟨_, exec_absorb_tooMany s hn, .rejected hc nofun rfl⟩
  · have hc : commandCheck (.absorb n) s l = absorbCheck s := if_neg hn
    by_cases hok : absorbCheck s = .ok
    · exact ⟨_, exec_absorb_opened (absorbCheck_ok.mp hok) (Nat.not_lt.mp hn), .accepted (hc.trans hok) rfl rfl⟩
    · exact ⟨_, exec_absorb_rejected (Nat.not_lt.mp hn) rfl hok, .rejected hc hok rfl⟩

theorem exec_final_answers (s : State) (l : Latched) : ∃ t, exec .final s = .next t ∧ Answers .final s l t := by
  have hc : commandCheck .final s l = finalCheck s := rfl
  rcases s.phase.cases_eq with hp | hp | hp <;> simp only [finalCheck, hp] at hc
  · exact ⟨_, exec_final_idle hp, .rejected hc nofun rfl⟩
  · exact ⟨_, exec_final_opened hp, .accepted hc rfl rfl⟩
  · exact ⟨_, exec_final_done hp, .accepted hc rfl rfl⟩

theorem exec_oneshot_answers {s : State} {l : Latched} {w : BitVec 2} (hl : s.latched (encode (.oneshot w)) = l) :
    ∃ t, exec (.oneshot w) s = .next t ∧ Answers (.oneshot w) s l t := by
  rcases hw : widthOf w with _ | wd
  · have hc : commandCheck (.oneshot w) s l = .badWidth := if_pos (widthOf_eq_none.mp hw)
    exact ⟨_, exec_oneshot_rejected hw s, .rejected hc nofun rfl⟩
  · have hc : commandCheck (.oneshot w) s l = rangeCheck s l :=
      if_neg fun h3 => nomatch hw.symm.trans (widthOf_eq_none.mpr h3)
    obtain rfl := widthOf_eq_some.mp hw
    rcases rangeCheck_eq s l with hr | hr
    · rcases hu : s.unanswered l.srcAddr.toNat l.length.toNat with _ | _
      · rcases hb : l.broken with _ | _
        · exact ⟨_, exec_oneshot_kept hl hr hu hb, .accepted (hc.trans hr) rfl rfl⟩
        · exact ⟨_, exec_oneshot_broken hl hr hu hb, .accepted (hc.trans hr) rfl rfl⟩
      · exact ⟨_, exec_oneshot_stalls hl hr hu, .stalled (hc.trans hr) hu rfl⟩
    · exact ⟨_, exec_oneshot_outOfRange hl hr, .rejected (hc.trans hr) nofun rfl⟩

/-- Every command is answered as its check list says (R203, R204). -/
theorem exec_answers (i : Instr) {s : State} {l : Latched} (hl : s.latched (encode i) = l) :
    ∃ t, exec i s = .next t ∧ Answers i s l t := by
  cases i with
  | nop => exact ⟨_, rfl, .accepted rfl rfl rfl⟩
  | init w => exact exec_init_answers s l w
  | absorb n => exact exec_absorb_answers s l n
  | final => exact exec_final_answers s l
  | oneshot w => exact exec_oneshot_answers hl
  | clear => exact ⟨_, rfl, .accepted rfl rfl rfl⟩

/-- Settles O7: a word with a reserved field fails the first checks in the decoder; every other one is the word of a command, which
is answered as its check list says. -/
theorem checksRunInTheListedOrder : Obligations.ChecksRunInTheListedOrder := by
  intro s l hl
  by_cases hres : HasReservedField l.cw
  · have hc := checkCode_of_hasReservedField s hres
    rw [hc]
    exact ⟨_, perform_of_decode_error (decode_of_hasReservedField hres), fun _ => rfl, nofun⟩
  · obtain ⟨i, hi⟩ := exists_encode_of_not_hasReservedField hres
    obtain ⟨t, ht, ha⟩ := exec_answers i (State.latched_of_running hl _)
    rw [checkCode_of_encode s hi, perform_of_encode s hi]
    refine ⟨t, ht, ?_⟩
    cases ha with
    | rejected hc hfails ht =>
      rw [hc]
      exact ⟨fun _ => ht, fun hok => absurd hok hfails⟩
    | accepted hpasses herr hidle => exact ⟨absurd hpasses, fun _ => .inl ⟨herr, hidle⟩⟩
    | stalled hpasses hu ht => exact ⟨absurd hpasses, fun _ => .inr ⟨hu, by rw [ht, ← hl]⟩⟩

/-- A command that completes reports the code of its check list. -/
theorem exec_err {i : Instr} {s t : State} (h : exec i s = .next t) (hidle : t.running = none) :
    t.err = commandCheck i s (s.latched (encode i)) := by
  obtain ⟨u, hu, ha⟩ := exec_answers i (s := s) rfl
  obtain rfl : t = u := Host.Outcome.next.inj (h.symm.trans hu)
  cases ha with
  | rejected hc _ ht => rw [hc, ht]
  | accepted hpasses herr _ => rw [herr, hpasses]
  | stalled _ _ ht => cases hidle.symm.trans (congrArg State.running ht)

/-- Settles O8: the codes are those of the command's lines of the check list. -/
theorem eachCommandReportsOnlyItsCodes : Obligations.EachCommandReportsOnlyItsCodes := by
  intro s t i h hidle
  have herr := exec_err h hidle
  cases i with
  | nop => exact herr
  | init w => by_cases h3 : w = 3#2 <;> simp [herr, commandCheck, h3]
  | absorb n =>
    by_cases hn : 16 < n.toNat
    · simp [herr, commandCheck, hn]
    · rcases s.phase.cases_eq with hp | hp | hp <;> simp [herr, commandCheck, hn, absorbCheck, hp]
  | final => rcases s.phase.cases_eq with hp | hp | hp <;> simp [herr, commandCheck, finalCheck, hp]
  | oneshot w =>
    by_cases h3 : w = 3#2
    · simp [herr, commandCheck, h3]
    · rcases rangeCheck_eq s (s.latched (encode (.oneshot w))) with hr | hr <;> simp [herr, commandCheck, h3, hr]
  | clear => exact herr

/-- Settles O9: the decoder's rejection is a next state, and so is the answer of every decoded command. -/
theorem everyCommandAnswersANextState : Obligations.EveryCommandAnswersANextState := by
  intro s l
  rcases hd : decode l.cw with e | i
  · exact ⟨_, perform_of_decode_error hd⟩
  · obtain ⟨t, ht, -⟩ := exec_answers i (s := s) rfl
    exact ⟨t, (perform_of_decode_ok hd).trans ht⟩

/-! ### OVR -/

theorem State.readReg_ovr (s : State) (r : Reg) : (s.readReg r).ovr = s.ovr := by
  obtain ⟨v, d, hr⟩ := s.readReg_changes r
  rw [hr]

theorem State.hostRead_ovr (s : State) (off : Nat) : (s.hostRead off).ovr = s.ovr := by
  obtain ⟨v, d, hr⟩ := s.hostRead_changes off
  rw [hr]

/-- Of the register writes only one of `CTRL` while a command runs writes `OVR`. -/
theorem State.writeReg_ovr (s : State) (r : Reg) (v : Word) :
    (s.writeReg r v).ovr = s.ovr ∨ (r = .ctrl ∧ s.busy = true ∧ (s.writeReg r v).ovr = true) := by
  rcases s.writeReg_cases r v with hw | ⟨hr, hb, hw⟩ | ⟨-, -, hw⟩ | ⟨a, b, c, d, e, hw⟩ <;> rw [hw]
  · exact .inl rfl
  · exact .inr ⟨hr, hb, rfl⟩
  · exact .inl rfl
  · exact .inl rfl

theorem State.hostWrite_ovr (s : State) (off : Nat) (v : Word) :
    (s.hostWrite off v).ovr = s.ovr ∨ (off = 0 ∧ s.busy = true ∧ (s.hostWrite off v).ovr = true) := by
  rcases s.hostWrite_cases off v with hw | ⟨ho, hb, hw⟩ | ⟨-, -, hw⟩ | ⟨a, b, c, d, e, hw⟩ <;> rw [hw]
  · exact .inl rfl
  · exact .inr ⟨ho, hb, rfl⟩
  · exact .inl rfl
  · exact .inl rfl

theorem State.hostTurn_ovr (s : State) :
    s.hostTurn.ovr = s.ovr ∨ (s.busy = true ∧ s.hostTurn.ovr = true ∧ ∃ cw p, s.program = .write .ctrl cw :: p) := by
  rcases s.hostTurn_cases with ⟨-, ht⟩ | ⟨r, v, p, hp, ht⟩ | ⟨r, p, -, ht⟩ | ⟨p, q, -, ht⟩ <;> rw [ht]
  · exact .inl rfl
  · rcases State.writeReg_ovr { s with program := p } r v with hw | ⟨rfl, hb, hw⟩
    · exact .inl hw
    · exact .inr ⟨hb, hw, v, p, hp⟩
  · exact .inl (State.readReg_ovr { s with program := p } r)
  · exact .inl (s.readReg_ovr .status)

/-- Of the commands only CLEAR writes `OVR`. -/
theorem exec_ovr {i : Instr} {s t : State} (h : exec i s = .next t) : t.ovr = s.ovr ∨ (i = .clear ∧ t.ovr = false) := by
  rcases exec_next_cases h with ⟨c, -, rfl⟩ | ⟨-, rfl⟩ | ⟨w, wd, -, -, rfl⟩ | ⟨n, -, -, -, rfl⟩ | ⟨-, -, rfl⟩ | ⟨-, -, rfl⟩ |
    ⟨w, wd, -, -, -, ⟨-, rfl⟩ | ⟨-, -, rfl⟩ | ⟨-, -, rfl⟩⟩ | ⟨hi, rfl⟩
  · exact .inl rfl
  · exact .inl rfl
  · exact .inl rfl
  · rw [State.push_frame]
    exact .inl rfl
  · exact .inl rfl
  · exact .inl rfl
  · exact .inl rfl
  · exact .inl rfl
  · rw [State.hashBuffer_eq]
    exact .inl rfl
  · exact .inr ⟨hi, rfl⟩

theorem perform_ovr {s t : State} {l : Latched} (h : s.perform l = .next t) :
    t.ovr = s.ovr ∨ (decode l.cw = .ok .clear ∧ t.ovr = false) := by
  rcases perform_next_cases h with ⟨e, -, rfl⟩ | ⟨i, hd, hx⟩
  · exact .inl rfl
  · rcases exec_ovr hx with ho | ⟨rfl, ho⟩
    · exact .inl ho
    · exact .inr ⟨hd, ho⟩

/-- What a step does to `OVR`: nothing, or a write to `CTRL` is dropped and sets it, or a reset or a CLEAR clears it (R205). -/
theorem step_ovr_cases {s t : State} (h : step s = .next t) :
    t.ovr = s.ovr ∨ (t.ovr = true ∧ s.busy = true ∧ ∃ cw, s.writesCtrl cw) ∨
      (t.ovr = false ∧ ((∃ rest, s.events = .reset :: rest) ∨
        ∃ l, s.running = some l ∧ decode l.cw = .ok .clear ∧ s.timePasses)) := by
  rcases step_next_cases h with ⟨-, -, rfl⟩ | ⟨ht, l, hl, hp⟩ | ⟨rest, he, rfl⟩ | ⟨off, rest, -, -, -, rfl⟩ |
    ⟨off, v, rest, he, -, -, rfl⟩ | ⟨a, v, rest, -, -, rfl⟩ | ⟨rest, -, rfl⟩ | ⟨rs, rest, -, rfl⟩ | ⟨rest, he, rfl⟩
  · exact .inl rfl
  · rcases perform_ovr hp with ho | ⟨hd, ho⟩
    · exact .inl ho
    · exact .inr (.inr ⟨ho, .inr ⟨l, hl, hd, ht⟩⟩)
  · rcases State.hostTurn_ovr { s with events := rest } with ho | ⟨hb, ho, cw, p, hp⟩
    · exact .inl ho
    · exact .inr (.inl ⟨ho, hb, cw, .inr ⟨rest, p, he, hp⟩⟩)
  · exact .inl (State.hostRead_ovr _ off)
  · rcases State.hostWrite_ovr { s with events := rest } off v with ho | ⟨rfl, hb, ho⟩
    · exact .inl ho
    · exact .inr (.inl ⟨ho, hb, v, .inl ⟨rest, he⟩⟩)
  · exact .inl rfl
  · exact .inl rfl
  · exact .inl rfl
  · exact .inr (.inr ⟨rfl, .inl ⟨rest, he⟩⟩)

/-- Settles O41: the write is dropped and sets `OVR`; the two other clauses are the cases in which a step changes `OVR`. -/
theorem ctrlWriteWhileBusyIsDropped : Obligations.CtrlWriteWhileBusyIsDropped := by
  refine ⟨fun s l cw rest hl he => ?_, fun s t h hs ht => ?_, fun s t h hs ht => ?_⟩
  · have hbusy : State.busy { s with events := rest } = true := by simp only [State.busy, hl, Option.isSome_some]
    rw [step_writeEvent he, State.writeReg, if_pos hbusy]
    rfl
  · rcases step_ovr_cases h with ho | ⟨-, hdropped⟩ | ⟨ho, -⟩
    · cases ht.symm.trans (ho.trans hs)
    · exact hdropped
    · cases ht.symm.trans ho
  · rcases step_ovr_cases h with ho | ⟨ho, -⟩ | ⟨-, hcleared⟩
    · cases ht.symm.trans (ho.trans hs)
    · cases ht.symm.trans ho
    · exact hcleared

end Sys2Proof.Machine
end

section
/-! Reset and hazards (70_reset_and_hazards.md): reset and the invariant (R230, R231), when `BUSY` rises and falls (R240), reads while
`BUSY = 1` (R241), and the end of every answered command (R245). -/

namespace Sys2Proof.Machine

/-! ### Reset -/

/-- Settles O51: asserting reset leaves every element of the core at the value it has in the reset state. -/
theorem resetSetsEveryElement : Obligations.ResetSetsEveryElement :=
  fun s rest he => ⟨State.assertReset { s with events := rest }, step_of_cons he, rfl, resetValuesAreTheSpecs⟩

/-- Settles O52: the buffer space is empty, `COUNT` is 0, and the phase is `IDLE`. -/
theorem invariantHoldsAtReset : Obligations.InvariantHoldsAtReset :=
  State.reset.inv_iff.mpr ⟨⟨State.reset_memory_wf, nofun, nofun⟩, ⟨.zero, fun _ => rfl, nofun⟩⟩

/-! ### Reads while BUSY = 1 -/

theorem State.hostRead_offset (s : State) (r : Reg) : s.hostRead r.offset = s.readReg r := by
  rw [State.hostRead, regAt_offset]

/-- A register of which no bit is open while `BUSY = 1` reads its value, whether a command runs or not (R241). -/
theorem State.readReg_of_fixed (s : State) {r : Reg} (h : r.anyWhileBusy = 0) :
    s.readReg r = { s with rdata := s.regValue r } := by
  simp [State.readReg, h]

/-- Settles O45: the read writes `rdata` and `draws` alone, `STATUS` shows `BUSY`, and the other registers named have no open bit. -/
theorem busyReadsKeepTheirFixedParts : Obligations.BusyReadsKeepTheirFixedParts := by
  intro s l off rest hl hlt h8 he
  have hbusy : State.busy { s with events := rest } = true := by simp only [State.busy, hl, Option.isSome_some]
  obtain ⟨v, d, hread⟩ := State.hostRead_changes { s with events := rest } off
  have value (r : Reg) (hfixed : r.anyWhileBusy = 0) (ho : off = r.offset) :
      (State.hostRead { s with events := rest } off).rdata = s.regValue r := by
    rw [ho, State.hostRead_offset, State.readReg_of_fixed _ hfixed, State.regValue_events]
  refine ⟨_, step_read he hlt h8, by rw [hread], fun ho => ?_, value .ctrl rfl, fun hres => ?_, value .seed rfl,
    value .length rfl, value .srcAddr rfl, value .din0 rfl, value .din1 rfl⟩
  · rw [show off = Reg.status.offset from ho, State.hostRead_offset]
    exact State.readReg_status_busy hbusy
  · rw [State.hostRead_reserved _ hres]

/-! ### The end of a command -/

/-- A running command whose reads are answered completes, rejected or accepted (R245; 43_commands.md R161). -/
theorem perform_ends_of_answered {s : State} {l : Latched} (hl : s.running = some l)
    (hanswered : s.unanswered l.srcAddr.toNat l.length.toNat = false) : ∃ t, s.perform l = .next t ∧ t.running = none := by
  rcases hd : decode l.cw with e | i
  · exact ⟨_, perform_of_decode_error hd, rfl⟩
  · obtain ⟨t, ht, ha⟩ := exec_answers i (State.latched_of_running hl _)
    refine ⟨t, (perform_of_decode_ok hd).trans ht, ?_⟩
    cases ha with
    | rejected _ _ ht => rw [ht]
    | accepted _ _ hidle => exact hidle
    | stalled _ hu _ => cases hanswered.symm.trans hu

/-- Settles O59: the step performs the running command, on the map of that step. -/
theorem everyAnsweredCommandEnds : Obligations.EveryAnsweredCommandEnds := by
  rintro s l hl hanswered (he | ⟨rest, he⟩)
  · rw [step_of_nil_running hl he]
    exact perform_ends_of_answered hl hanswered
  · rw [step_of_elapse_running hl he]
    exact perform_ends_of_answered (s := { s with events := rest }) hl hanswered

/-! ### BUSY -/

theorem State.busy_of_running_eq {s t : State} (h : t.running = s.running) : t.busy = s.busy := congrArg Option.isSome h

theorem State.hostRead_running (s : State) (off : Nat) : (s.hostRead off).running = s.running := by
  obtain ⟨v, d, hr⟩ := s.hostRead_changes off
  rw [hr]

/-- Of the register writes only one of `CTRL` while no command runs writes `BUSY` (43_commands.md R160). -/
theorem State.writeReg_busy (s : State) (r : Reg) (v : Word) :
    (s.writeReg r v).busy = s.busy ∨ (r = .ctrl ∧ s.busy = false ∧ (s.writeReg r v).busy = true) := by
  rcases s.writeReg_cases r v with hw | ⟨-, -, hw⟩ | ⟨hr, hb, hw⟩ | ⟨a, b, c, d, e, hw⟩ <;> rw [hw]
  · exact .inl rfl
  · exact .inl rfl
  · exact .inr ⟨hr, hb, rfl⟩
  · exact .inl rfl

theorem State.hostWrite_busy (s : State) (off : Nat) (v : Word) :
    (s.hostWrite off v).busy = s.busy ∨ (off = 0 ∧ s.busy = false ∧ (s.hostWrite off v).busy = true) := by
  rcases s.hostWrite_cases off v with hw | ⟨-, -, hw⟩ | ⟨ho, hb, hw⟩ | ⟨a, b, c, d, e, hw⟩ <;> rw [hw]
  · exact .inl rfl
  · exact .inl rfl
  · exact .inr ⟨ho, hb, rfl⟩
  · exact .inl rfl

theorem State.hostTurn_busy (s : State) :
    s.hostTurn.busy = s.busy ∨ (s.busy = false ∧ s.hostTurn.busy = true ∧ ∃ cw p, s.program = .write .ctrl cw :: p) := by
  rcases s.hostTurn_cases with ⟨-, ht⟩ | ⟨r, v, p, hp, ht⟩ | ⟨r, p, -, ht⟩ | ⟨p, q, -, ht⟩ <;> rw [ht]
  · exact .inl rfl
  · rcases State.writeReg_busy { s with program := p } r v with hw | ⟨rfl, hb, hw⟩
    · exact .inl hw
    · exact .inr ⟨hb, hw, v, p, hp⟩
  · exact .inl (State.busy_of_running_eq (State.readReg_running { s with program := p } r))
  · exact .inl (State.busy_of_running_eq (s.readReg_running .status))

/-- What a step does to `BUSY`: nothing, or a write to `CTRL` issues a command and sets it, or the latency of the running command
elapses, or a reset clears it (R231, R240). -/
theorem step_busy_cases {s t : State} (h : step s = .next t) :
    t.busy = s.busy ∨ (s.busy = false ∧ t.busy = true ∧ ∃ cw, s.writesCtrl cw) ∨ (s.busy = true ∧ s.timePasses) ∨
      (t.busy = false ∧ ∃ rest, s.events = .reset :: rest) := by
  rcases step_next_cases h with ⟨-, -, rfl⟩ | ⟨ht, l, hl, -⟩ | ⟨rest, he, rfl⟩ | ⟨off, rest, -, -, -, rfl⟩ |
    ⟨off, v, rest, he, -, -, rfl⟩ | ⟨a, v, rest, -, -, rfl⟩ | ⟨rest, -, rfl⟩ | ⟨rs, rest, -, rfl⟩ | ⟨rest, he, rfl⟩
  · exact .inl rfl
  · exact .inr (.inr (.inl ⟨congrArg Option.isSome hl, ht⟩))
  · rcases State.hostTurn_busy { s with events := rest } with hb | ⟨hs, hb, cw, p, hp⟩
    · exact .inl hb
    · exact .inr (.inl ⟨hs, hb, cw, .inr ⟨rest, p, he, hp⟩⟩)
  · exact .inl (State.busy_of_running_eq (State.hostRead_running { s with events := rest } off))
  · rcases State.hostWrite_busy { s with events := rest } off v with hb | ⟨rfl, hs, hb⟩
    · exact .inl hb
    · exact .inr (.inl ⟨hs, hb, v, .inl ⟨rest, he⟩⟩)
  · exact .inl Option.isSome_map
  · exact .inl rfl
  · exact .inl Option.isSome_map
  · exact .inr (.inr (.inr ⟨rfl, rest, he⟩))

/-- Settles O60: of the cases in which a step changes `BUSY`, one raises it and two can let it fall. -/
theorem busyRisesAtIssueAndFallsAtCompletion : Obligations.BusyRisesAtIssueAndFallsAtCompletion := by
  refine fun s t h => ⟨fun hs ht => ?_, fun hs ht => ?_⟩
  · rcases step_busy_cases h with hb | ⟨-, -, hissue⟩ | ⟨hb, -⟩ | ⟨hb, -⟩
    · cases ht.symm.trans (hb.trans hs)
    · exact hissue
    · cases hb.symm.trans hs
    · cases ht.symm.trans hb
  · rcases step_busy_cases h with hb | ⟨hb, -⟩ | ⟨-, helapse⟩ | ⟨-, hreset⟩
    · cases ht.symm.trans (hb.trans hs)
    · cases hb.symm.trans hs
    · exact or_assoc.mp (.inl helapse)
    · exact .inr (.inr hreset)

end Sys2Proof.Machine
end
